-- ==== Sys2Proof/Word.lean ====
section
/-! DEFINITION. The widths of spec/00_scope.md R5: XLEN = ILEN = 32, NREGS = 32 (a 5-bit index), IMMW = 16. -/

namespace Sys2Proof

/-- A 32-bit value: a register, an ALU operand or result, a cell of the data memory, a data address, an instruction
word (R5). -/
abbrev Word := BitVec 32

/-- A register index: 5 bits, so each of the 32 registers and nothing else (R11, R45). -/
abbrev RegIdx := BitVec 5

/-- The 16-bit immediate field (R44). -/
abbrev Imm := BitVec 16

/-- An opcode, and a function code: 6 bits each (R41). -/
abbrev Code6 := BitVec 6

end Sys2Proof
end

