-- ==== Sys2Proof/Machine/Control.lean ====
section
/-! DEFINITION. The Control Unit (spec/40_datapath_tick.md R59 to R61, R65, R75): the Control Signal Bundle, the bundle
of each instruction, and the table as a function of opcode and function code. -/

namespace Sys2Proof.Machine

/-- The ALU operation selector, six-valued because 6 and 7 are given no result (R64, R65; log 10). -/
inductive AluOp where
  | add | and | shiftImm | or | lessThan | subtract
deriving DecidableEq, Repr

/-- The ALU-source-B select, two-valued because 2 and 3 are given no source (R63, R75; log 10). -/
inductive AluSrc where
  | reg | imm
deriving DecidableEq, Repr

/-- The 3-bit selector of an operation (R64). -/
def AluOp.selector : AluOp → BitVec 3
  | .add => 0#3
  | .and => 1#3
  | .shiftImm => 2#3
  | .or => 3#3
  | .lessThan => 4#3
  | .subtract => 5#3

/-- The operation of a 3-bit selector; 6 and 7 are refused (R65). -/
def AluOp.ofSelector (b : BitVec 3) : Option AluOp :=
  if b = 0#3 then some .add
  else if b = 1#3 then some .and
  else if b = 2#3 then some .shiftImm
  else if b = 3#3 then some .or
  else if b = 4#3 then some .lessThan
  else if b = 5#3 then some .subtract
  else none

/-- The 2-bit select of a source (R59, R63). -/
def AluSrc.selector : AluSrc → BitVec 2
  | .reg => 0#2
  | .imm => 1#2

/-- The source of a 2-bit select; 2 and 3 are refused (R75). -/
def AluSrc.ofSelector (b : BitVec 2) : Option AluSrc :=
  if b = 0#2 then some .reg
  else if b = 1#2 then some .imm
  else none

/-- The Control Signal Bundle (R59). -/
structure Control where
  aluOp : AluOp
  memToReg : Bool
  memWrite : Bool
  aluSrc : AluSrc
  regWrite : Bool
  branch : Bool
  regDst : Bool
deriving DecidableEq, Repr

/-- Row ADD of R60. -/
def controlAdd : Control :=
  { aluOp := .add, memToReg := false, memWrite := false, aluSrc := .reg, regWrite := true, branch := false, regDst := true }

/-- Row AND of R60. -/
def controlAnd : Control :=
  { aluOp := .and, memToReg := false, memWrite := false, aluSrc := .reg, regWrite := true, branch := false, regDst := true }

/-- Row SLT of R60. -/
def controlSlt : Control :=
  { aluOp := .lessThan, memToReg := false, memWrite := false, aluSrc := .reg, regWrite := true, branch := false,
    regDst := true }

/-- Row ADDI of R60. -/
def controlAddi : Control :=
  { aluOp := .add, memToReg := false, memWrite := false, aluSrc := .imm, regWrite := true, branch := false,
    regDst := false }

/-- Row LUI of R60. -/
def controlLui : Control :=
  { aluOp := .shiftImm, memToReg := false, memWrite := false, aluSrc := .imm, regWrite := true, branch := false,
    regDst := false }

/-- Row ORI of R60. -/
def controlOri : Control :=
  { aluOp := .or, memToReg := false, memWrite := false, aluSrc := .imm, regWrite := true, branch := false,
    regDst := false }

/-- Row LW of R60. -/
def controlLw : Control :=
  { aluOp := .add, memToReg := true, memWrite := false, aluSrc := .imm, regWrite := true, branch := false,
    regDst := false }

/-- Row SW of R60; its two don't-cares, `memToReg` and `regDst`, are 0 (R61; log 9). -/
def controlSw : Control :=
  { aluOp := .add, memToReg := false, memWrite := true, aluSrc := .imm, regWrite := false, branch := false,
    regDst := false }

/-- Row BEQ of R60; its don't-care, `regDst`, is 0 (R61; log 9). -/
def controlBeq : Control :=
  { aluOp := .subtract, memToReg := false, memWrite := false, aluSrc := .reg, regWrite := false, branch := true,
    regDst := false }

/-- The all-zero bundle of every other pair (R60, R96). -/
def controlZero : Control :=
  { aluOp := .add, memToReg := false, memWrite := false, aluSrc := .reg, regWrite := false, branch := false,
    regDst := false }

/-- The rows of R60 with `opcode = 0x00`, selected by the function code. -/
def controlUnitRType (func : Code6) : Control :=
  if func = 0x20#6 then controlAdd
  else if func = 0x24#6 then controlAnd
  else if func = 0x2a#6 then controlSlt
  else controlZero

/-- The Control Unit: a function of opcode and function code alone, total, all-zero for every pair that is not in the
table (R59, R60). -/
def controlUnit (opcode func : Code6) : Control :=
  if opcode = 0x00#6 then controlUnitRType func
  else if opcode = 0x08#6 then controlAddi
  else if opcode = 0x0f#6 then controlLui
  else if opcode = 0x0d#6 then controlOri
  else if opcode = 0x23#6 then controlLw
  else if opcode = 0x2b#6 then controlSw
  else if opcode = 0x04#6 then controlBeq
  else controlZero

end Sys2Proof.Machine
end

