-- ==== Sys2Proof/Syntax.lean ====
section
/-! DEFINITION. The instruction set: the ten-way sum spec/45_unsupported.md R98 asks for, one constructor per row of
spec/opcode_table.json. -/

namespace Sys2Proof

/-- The nine instructions of R46 and the unsupported word of R48. A constructor holds every field of the word that is
not fixed by its row, the ignored ones too (`sh` of the R-type, `rs` of LUI: R47), so that no bit of a word is lost. -/
inductive Instr where
  /-- ADD, `x[rd] <- x[rs] + x[rt]` (R80). -/
  | add (rs rt rd : RegIdx) (sh : BitVec 5)
  /-- AND, `x[rd] <- x[rs] & x[rt]` (R81). -/
  | and (rs rt rd : RegIdx) (sh : BitVec 5)
  /-- SLT, unsigned set on less than (R82). -/
  | slt (rs rt rd : RegIdx) (sh : BitVec 5)
  /-- ADDI, add a sign-extended immediate (R84). -/
  | addi (rs rt : RegIdx) (imm : Imm)
  /-- LUI, load upper immediate (R86). -/
  | lui (rs rt : RegIdx) (imm : Imm)
  /-- ORI, OR with a zero-extended immediate (R85). -/
  | ori (rs rt : RegIdx) (imm : Imm)
  /-- LW, load word (R88). -/
  | lw (rs rt : RegIdx) (imm : Imm)
  /-- SW, store word (R89). -/
  | sw (rs rt : RegIdx) (imm : Imm)
  /-- BEQ, branch if equal (R92). -/
  | beq (rs rt : RegIdx) (imm : Imm)
  /-- An unsupported word, the silent no-operation (R96). -/
  | unsupported (w : Word)
deriving DecidableEq, Repr

end Sys2Proof
end

