-- ==== Sys2Proof/WellFormed.lean ====
section
/-! DEFINITION. Which terms of Instr stand for a word: all of the nine kinds, and `unsupported w` exactly when no row of
spec/30_encoding.md R46 matches `w` (R48). -/

namespace Sys2Proof

/-- One row of the table of R46: a word `w` is the row's instruction exactly when `w & mask = pattern`. -/
structure OpcodeRow where
  mnemonic : String
  pattern : Word
  mask : Word
deriving DecidableEq, Repr

/-- The row matches the word (R46). -/
def OpcodeRow.fits (r : OpcodeRow) (w : Word) : Bool := w &&& r.mask == r.pattern

/-- The nine rows of R46. -/
def opcodeRows : List OpcodeRow :=
  [ ⟨"ADD", 0x00000020#32, 0xFC00003F#32⟩,
    ⟨"AND", 0x00000024#32, 0xFC00003F#32⟩,
    ⟨"SLT", 0x0000002A#32, 0xFC00003F#32⟩,
    ⟨"ADDI", 0x20000000#32, 0xFC000000#32⟩,
    ⟨"LUI", 0x3C000000#32, 0xFC000000#32⟩,
    ⟨"ORI", 0x34000000#32, 0xFC000000#32⟩,
    ⟨"LW", 0x8C000000#32, 0xFC000000#32⟩,
    ⟨"SW", 0xAC000000#32, 0xFC000000#32⟩,
    ⟨"BEQ", 0x10000000#32, 0xFC000000#32⟩ ]

/-- The word is one of the nine supported instructions (R46); every other word is unsupported (R48). -/
def supportedWord (w : Word) : Bool := opcodeRows.any (·.fits w)

/-- An instruction term that stands for some word. Every field of the nine kinds is a bit field of the word and any
value of it is an instruction (R41, R45, R47); `unsupported w` needs `w` to be an unsupported word (R48). -/
def Instr.wf : Instr → Bool
  | .add _ _ _ _ => true
  | .and _ _ _ _ => true
  | .slt _ _ _ _ => true
  | .addi _ _ _ => true
  | .lui _ _ _ => true
  | .ori _ _ _ => true
  | .lw _ _ _ => true
  | .sw _ _ _ => true
  | .beq _ _ _ => true
  | .unsupported w => !supportedWord w

end Sys2Proof
end

