-- ==== Sys2Proof/Decode.lean ====
section
/-! DEFINITION. The Field Decoder (spec/30_encoding.md R41), the selection of the instruction by opcode and function code
(R46, R47) and the encoder (R54). Decoding is total (R43): a word that is none of the nine instructions is, by name, an
unsupported word (R48). -/

namespace Sys2Proof

/-- The eight Decoded Fields (R41). Bit 31 is the most significant bit (R7). -/
structure Fields where
  opcode : Code6
  rs : RegIdx
  rt : RegIdx
  rd : RegIdx
  sh : BitVec 5
  func : Code6
  imm : Imm
  addr : BitVec 26
deriving DecidableEq, Repr

/-- The Field Decoder: fixed bit ranges of the word, all eight from every word (R41, R58). -/
def fieldsOf (w : Word) : Fields :=
  { opcode := w.extractLsb' 26 6
    rs := w.extractLsb' 21 5
    rt := w.extractLsb' 16 5
    rd := w.extractLsb' 11 5
    sh := w.extractLsb' 6 5
    func := w.extractLsb' 0 6
    imm := w.extractLsb' 0 16
    addr := w.extractLsb' 0 26 }

/-- The R-type words: `opcode = 0x00`, selected by `func`; `sh` is not examined (R46, R47). -/
def decodeRType (f : Fields) (w : Word) : Instr :=
  if f.func = 0x20#6 then .add f.rs f.rt f.rd f.sh
  else if f.func = 0x24#6 then .and f.rs f.rt f.rd f.sh
  else if f.func = 0x2a#6 then .slt f.rs f.rt f.rd f.sh
  else .unsupported w

/-- The instruction a 32-bit word is (R46, R47, R48). Total: no word is refused (R43). -/
def decode (w : Word) : Instr :=
  let f := fieldsOf w
  if f.opcode = 0x00#6 then decodeRType f w
  else if f.opcode = 0x08#6 then .addi f.rs f.rt f.imm
  else if f.opcode = 0x0f#6 then .lui f.rs f.rt f.imm
  else if f.opcode = 0x0d#6 then .ori f.rs f.rt f.imm
  else if f.opcode = 0x23#6 then .lw f.rs f.rt f.imm
  else if f.opcode = 0x2b#6 then .sw f.rs f.rt f.imm
  else if f.opcode = 0x04#6 then .beq f.rs f.rt f.imm
  else .unsupported w

/-- The encoding function `R` of R54, `opcode = 0`. -/
def encodeR (func : Code6) (rs rt rd : RegIdx) (sh : BitVec 5) : Word :=
  (rs.setWidth 32 <<< 21) ||| (rt.setWidth 32 <<< 16) ||| (rd.setWidth 32 <<< 11) ||| (sh.setWidth 32 <<< 6) |||
    func.setWidth 32

/-- The encoding function `I` of R54. -/
def encodeI (opcode : Code6) (rs rt : RegIdx) (imm : Imm) : Word :=
  (opcode.setWidth 32 <<< 26) ||| (rs.setWidth 32 <<< 21) ||| (rt.setWidth 32 <<< 16) ||| imm.setWidth 32

/-- The word of an instruction (R54, R46). An unsupported word stands for itself. -/
def encode : Instr → Word
  | .add rs rt rd sh => encodeR 0x20#6 rs rt rd sh
  | .and rs rt rd sh => encodeR 0x24#6 rs rt rd sh
  | .slt rs rt rd sh => encodeR 0x2a#6 rs rt rd sh
  | .addi rs rt imm => encodeI 0x08#6 rs rt imm
  | .lui rs rt imm => encodeI 0x0f#6 rs rt imm
  | .ori rs rt imm => encodeI 0x0d#6 rs rt imm
  | .lw rs rt imm => encodeI 0x23#6 rs rt imm
  | .sw rs rt imm => encodeI 0x2b#6 rs rt imm
  | .beq rs rt imm => encodeI 0x04#6 rs rt imm
  | .unsupported w => w

/-- The decoder on the host's numbering of a table row's bits: an instruction is one 32-bit word (R40), bit 0 its least
significant bit; a number of more than 32 bits is no instruction. -/
def decodeTableWord (nbits w : Nat) : Option Instr :=
  if nbits ≤ 32 ∧ w < 2 ^ 32 then some (decode (BitVec.ofNat 32 w)) else none

end Sys2Proof
end

