-- ==== Sys2Proof/Config.lean ====
section
/-! DEFINITION. The parameters that spec/00_scope.md R6 has a model take as arguments. They are plain data and stand in
State (field `cfg`), because `step` and `exec` take a State and nothing else; no step changes them (log 1). -/

namespace Sys2Proof

/-- The implementation parameters of R6 that are numbers of the machine. (`IMEM` is the field `imem` of State, `NTICKS`
the argument of `runTicks`.) -/
structure Config where
  /-- `PCW`: the width of the program counter in bits; the instruction store has `2 ^ PCW` entries (R6, R15, D2). -/
  pcw : Nat
  /-- `DMEM_WORDS`: the number of provisioned data memory cells (R6, R21, D6). -/
  dmemWords : Nat
deriving DecidableEq, Repr

/-- The ranges R6 gives: `PCW` from 1 to 32, `DMEM_WORDS` from 1 to `2 ^ 32`. -/
abbrev Config.wf (c : Config) : Prop :=
  1 ≤ c.pcw ∧ c.pcw ≤ 32 ∧ 1 ≤ c.dmemWords ∧ c.dmemWords ≤ 2 ^ 32

/-- The defaults R6 gives: a 32-bit program counter and the full data memory. DESIGN CHOICE (log 1): the reset state
takes them. -/
def Config.default : Config := { pcw := 32, dmemWords := 2 ^ 32 }

end Sys2Proof
end

