-- ==== Sys2Proof/Machine/State.lean ====
section
/-! DEFINITION. The state of the machine (spec/10_state.md R10, R24), the one fault (spec/60_exceptions.md R115) and the
host's refusal. -/

namespace Sys2Proof.Machine

/-- The reasons the machine stops. -/
inductive Fault where
  /-- `DataAddressOutOfRange(addr)`, raised by a LW or SW whose effective address `addr` is at or above `DMEM_WORDS`, at
  the program counter `pc` (R33, R114, R115). Safe: the machine stops where a chip that wrapped or ignored the access
  would run on (D7, log 5). -/
  | dataAddressOutOfRange (pc addr : Word)
deriving DecidableEq, Repr

/-- The reasons an instruction has no meaning. -/
inductive Refusal where
  /-- An instruction whose meaning is not written, by its mnemonic, raised by an arm of `exec`. Safe: the machine stops.
  No arm of this model raises it: every instruction has its meaning. -/
  | notModelled (mnemonic : String)
deriving DecidableEq, Repr

/-- A memory of 32-bit entries: (index, word) pairs, indices strictly rising, no entry 0; an index that is not listed
reads 0 (R24, R27, R28; log 3). `Memory.wf` in Machine/Ops.lean says the form. -/
abbrev Memory := List (Nat × Word)

/-- The state: the four storage elements of R10, the model-level mark of R24, and the parameters of R6 (log 1, log 2). -/
structure State where
  /-- The Register File `x`: 32 registers of 32 bits, register 0 an ordinary one (R11, R13). -/
  x : Vector Word 32
  /-- The Program Counter, a `PCW`-bit value held zero-extended to 32 bits (R15, R16; log 8). -/
  pc : Word
  /-- The Data Memory `DM`, by cell address (R21). -/
  dmem : Memory
  /-- The Instruction Store `IM`, by instruction index; no step writes it (R22; log 2). -/
  imem : Memory
  /-- The model-level `faulted` mark, which records the faulting `pc` and address (R24, R115; log 5). -/
  faulted : Option Fault
  /-- `PCW` and `DMEM_WORDS` (R6; log 1). -/
  cfg : Config
deriving DecidableEq, Repr

/-- The state at the start of tick 0 (R24) with nothing loaded and the default parameters: every register, every cell
and every instruction store entry 0, `pc` 0, no fault. -/
def State.reset : State :=
  { x := Vector.replicate 32 0#32
    pc := 0#32
    dmem := []
    imem := []
    faulted := none
    cfg := Config.default }

end Sys2Proof.Machine
end

