-- ==== Sys2Proof/Machine/Ops.lean ====
section
/-! DEFINITION. The named operations over memory, registers and the program counter, and raising the one fault. The
hardware has no trap entry and no trap return (spec/60_exceptions.md R119, R120), so there is none here. -/

namespace Sys2Proof.Machine

/-- The canonical form of a memory: indices strictly rising and no entry equal to 0, which an unlisted index reads as. -/
abbrev Memory.wf (m : Memory) : Prop :=
  m.Pairwise (fun p q => p.1 < q.1) ∧ ∀ p ∈ m, p.2 ≠ 0#32

/-- The entry at index `a`; 0 where nothing is listed (R24). -/
def Memory.read : Memory → Nat → Word
  | [], _ => 0#32
  | (b, u) :: m, a => if a = b then u else Memory.read m a

/-- The memory with nothing listed at index `a`, so that it reads 0 there. -/
def Memory.clear (m : Memory) (a : Nat) : Memory := m.filter (fun p => p.1 != a)

/-- The memory with the entry `(a, v)` in its place by index, in place of an entry for `a`. -/
def Memory.put : Memory → Nat → Word → Memory
  | [], a, v => [(a, v)]
  | (b, u) :: m, a, v =>
    if a < b then (a, v) :: (b, u) :: m
    else if a = b then (a, v) :: m
    else (b, u) :: Memory.put m a v

/-- The memory with `v` at index `a`. Writing 0 removes the entry, so that equal memories are equal lists. -/
def Memory.write (m : Memory) (a : Nat) (v : Word) : Memory :=
  if v = 0#32 then m.clear a else m.put a v

/-- The memory that holds a list of words from index `k` on, and 0 everywhere else: the program image of R106. -/
def Memory.ofWords : Nat → List Word → Memory
  | _, [] => []
  | k, w :: ws => if w = 0#32 then Memory.ofWords (k + 1) ws else (k, w) :: Memory.ofWords (k + 1) ws

/-- `x[i]` (R11, R14). Register 0 is read like every other (R13). -/
def State.reg (s : State) (i : RegIdx) : Word := s.x[i.toNat]'(i.isLt)

/-- `x[i] <- v` (R14). Register 0 is written like every other (R13). -/
def State.setReg (s : State) (i : RegIdx) (v : Word) : State :=
  { s with x := s.x.set i.toNat v i.isLt }

/-- `DM[a]`: the whole 32-bit cell at the 32-bit cell address `a`, used as it stands (R21, R27). -/
def State.cell (s : State) (a : Word) : Word := s.dmem.read a.toNat

/-- `DM[a]` takes `v` (R21, R27). -/
def State.setCell (s : State) (a v : Word) : State := { s with dmem := s.dmem.write a.toNat v }

/-- `IM[i]` (R22, R25). -/
def State.imWord (s : State) (i : Word) : Word := s.imem.read i.toNat

/-- The fetch: `instr = IM[pc]`. It cannot fail and has no side effect (R57). -/
def State.fetch (s : State) : Word := s.imWord s.pc

/-- The data address is provisioned: unsigned, on all 32 bits, never wrapped (R33). -/
def State.inRange (s : State) (a : Word) : Bool := decide (a.toNat < s.cfg.dmemWords)

/-- `trunc_PCW` (R8) of a 32-bit value, held in 32 bits again (R16; log 8). -/
def truncPcw (pcw : Nat) (v : Word) : Word := BitVec.ofNat 32 (v.toNat % 2 ^ pcw)

/-- `pc <- t`. -/
def State.setPc (s : State) (t : Word) : State := { s with pc := t }

/-- `raise DataAddressOutOfRange(addr)` in the tick at `s`: the tick commits nothing and the machine stops, the reason
carrying the program counter and the address (R9, R114, R115). The one fault of the machine. -/
def raiseOutOfRange (addr : Word) (s : State) : Host.Outcome State Fault Refusal :=
  .fault (.dataAddressOutOfRange s.pc addr)

/-- The faulted condition a raised fault leaves: the mark records it and nothing else changes (R115, R116; log 5). -/
def State.markFaulted (s : State) (f : Fault) : State := { s with faulted := some f }

/-- The driver's load: the image into the instruction store from index 0 on, 0 beyond it (R22, R106). -/
def State.load (s : State) (program : List Word) : State := { s with imem := Memory.ofWords 0 program }

/-- The reset state of a machine with parameters `cfg` after the load of `program` (R24, R106, R126). -/
def State.resetWith (cfg : Config) (program : List Word) : State :=
  ({ State.reset with cfg := cfg } : State).load program

end Sys2Proof.Machine
end

