-- ==== Sys2Proof/Machine/Operands.lean ====
section
/-! DEFINITION. Operand forms: the fields the datapath reads, the two extensions, operand B
(spec/40_datapath_tick.md R62, R63) and the one addressing mode (spec/43_load_store.md R90). -/

namespace Sys2Proof.Machine

/-- The Decoded Fields the datapath reads. The opcode and the function code feed only the Control Unit; `sh` and `addr`
feed nothing (R58). -/
structure Operands where
  rs : RegIdx
  rt : RegIdx
  rd : RegIdx
  imm : Imm
deriving DecidableEq, Repr

/-- The fields of a word that the datapath reads (R41, R58). -/
def operandsOf (w : Word) : Operands :=
  { rs := (fieldsOf w).rs, rt := (fieldsOf w).rt, rd := (fieldsOf w).rd, imm := (fieldsOf w).imm }

/-- The fields of an R-type instruction: its immediate field is the bit string `rd, sh, func` (R41). -/
def operandsR (func : Code6) (rs rt rd : RegIdx) (sh : BitVec 5) : Operands :=
  { rs := rs, rt := rt, rd := rd, imm := rd ++ sh ++ func }

/-- The fields of an I-type instruction: its `rd` field is bits 15 to 11 of the immediate (R41, R45). -/
def operandsI (rs rt : RegIdx) (imm : Imm) : Operands :=
  { rs := rs, rt := rt, rd := imm.extractLsb' 11 5, imm := imm }

/-- `sext_32` (R8). -/
def sext32 (v : Imm) : Word := v.signExtend 32

/-- `zext_32` (R8). -/
def zext32 (v : Imm) : Word := v.setWidth 32

/-- The extended immediate: zero-extended when the operation is OR, sign-extended otherwise (R63). -/
def extendImm (op : AluOp) (imm : Imm) : Word :=
  if op = .or then zext32 imm else sext32 imm

/-- ALU operand B: register `rt` or the extended immediate (R63). -/
def operandB (src : AluSrc) (rtVal ext : Word) : Word :=
  match src with
  | .reg => rtVal
  | .imm => ext

/-- The effective address of LW and SW: `x[rs] + sext_32(imm)` modulo `2 ^ 32`, a 32-bit cell address (R90). -/
def State.effectiveAddress (s : State) (rs : RegIdx) (imm : Imm) : Word := s.reg rs + sext32 imm

end Sys2Proof.Machine
end

