-- ==== Sys2Proof/Machine/Flags.lean ====
section
/-! DEFINITION. The ALU (spec/40_datapath_tick.md R64) and its zero comparison (R66), the only condition the hardware
computes. There are no stored flags (spec/10_state.md R18). -/

namespace Sys2Proof.Machine

/-- The ALU: a function of the selector, operands A and B and the immediate field; no carry, borrow, overflow or sign is
recorded (R64). Operation 2 takes the immediate field itself (R64, C3); operation 4
compares unsigned integers; operation 5 is `b - a`. -/
def alu (op : AluOp) (a b : Word) (imm : Imm) : Word :=
  match op with
  | .add => a + b
  | .and => a &&& b
  | .shiftImm => zext32 imm <<< 16
  | .or => a ||| b
  | .lessThan => bif a.ult b then 1#32 else 0#32
  | .subtract => b - a

/-- The zero comparison: 1 exactly when the ALU result is 0 (R66). It is used in the same tick and not stored (R18). -/
def zeroFlag (aluResult : Word) : Bool := aluResult == 0#32

end Sys2Proof.Machine
end

