-- ==== Sys2Proof/Machine/Datapath.lean ====
section
/-! DEFINITION. The datapath of one tick (spec/40_datapath_tick.md R62 to R71): the signals it computes from the committed
state, and the commit. Every instruction's meaning is `cycle` under its own control bundle. -/

namespace Sys2Proof.Machine

/-- The signals a tick computes, under the names of R76. `memData` is absent where the tick produces no word (a store, or
a discarded read outside the provisioned cells: R67); `wb` is absent where the write-back selects an absent word, which
no bundle of R60 does (R68; log 12). -/
structure Signals where
  operands : Operands
  control : Control
  a : Word
  rtVal : Word
  ext : Word
  b : Word
  aluResult : Word
  zero : Bool
  memData : Option Word
  wb : Option Word
  dest : RegIdx
  taken : Bool
  nextPc : Word
deriving DecidableEq, Repr

/-- The word the Data Memory stage exposes: none in a tick that stores; otherwise the cell at the ALU result, if it is
provisioned. This read raises nothing (R67, R32; log 11). -/
def memStageData (c : Control) (addr : Word) (s : State) : Option Word :=
  if c.memWrite then none else if s.inRange addr then some (s.cell addr) else none

/-- The write-back selection (R68). -/
def writeBack (c : Control) (aluResult : Word) (memData : Option Word) : Option Word :=
  if c.memToReg then memData else some aluResult

/-- The destination index (R69). -/
def destination (c : Control) (o : Operands) : RegIdx := if c.regDst then o.rd else o.rt

/-- The Program-Counter Updater (R70): `pc + 1`, or `pc + 1 + sext_32(imm)` when taken, modulo `2 ^ PCW` (R16). -/
def nextPcValue (pcw : Nat) (pc : Word) (taken : Bool) (imm : Imm) : Word :=
  if taken then truncPcw pcw (pc + 1#32 + sext32 imm) else truncPcw pcw (pc + 1#32)

/-- Everything one tick computes before its commit, from the committed state alone (R62 to R70). -/
def signals (c : Control) (o : Operands) (s : State) : Signals :=
  let a := s.reg o.rs
  let rtVal := s.reg o.rt
  let ext := extendImm c.aluOp o.imm
  let b := operandB c.aluSrc rtVal ext
  let aluResult := alu c.aluOp a b o.imm
  let zero := zeroFlag aluResult
  let memData := memStageData c aluResult s
  let taken := c.branch && zero
  { operands := o, control := c, a := a, rtVal := rtVal, ext := ext, b := b, aluResult := aluResult, zero := zero,
    memData := memData, wb := writeBack c aluResult memData, dest := destination c o, taken := taken,
    nextPc := nextPcValue s.cfg.pcw s.pc taken o.imm }

/-- The register write at the end of the tick, if register-write is enabled (R69). -/
def commitReg (g : Signals) (s : State) : State :=
  if g.control.regWrite then
    match g.wb with
    | some v => s.setReg g.dest v
    | none => s
  else s

/-- The memory write at the end of the tick, if memory-write is enabled: the value of register `rt` as read (R67). -/
def commitMem (g : Signals) (s : State) : State :=
  if g.control.memWrite then s.setCell g.aluResult g.rtVal else s

/-- The commit: register, memory and program counter together, all from signals of the state before (R71, R37). -/
def commit (g : Signals) (s : State) : State := (commitMem g (commitReg g s)).setPc g.nextPc

/-- The range check: only a store and a load that is used are checked (R33, R67, C11). -/
def raises (g : Signals) (s : State) : Bool :=
  (g.control.memWrite || g.control.memToReg) && !s.inRange g.aluResult

/-- One tick from the Control Unit's bundle on (R72): the fault, with nothing committed, or the commit. -/
def cycle (c : Control) (o : Operands) (s : State) : Host.Outcome State Fault Refusal :=
  let g := signals c o s
  if raises g s then raiseOutOfRange g.aluResult s else .next (commit g s)

end Sys2Proof.Machine
end

