-- ==== Sys2Proof/Machine/Branch.lean ====
section
/-! DEFINITION. The only control transfer: BEQ (spec/44_branch.md R92 to R94). -/

namespace Sys2Proof.Machine

/-- BEQ: `pc <- pc + 1 + sext_32(imm)` if `x[rs] = x[rt]`, else `pc + 1`, modulo `2 ^ PCW` (R92). -/
def execBeq (rs rt : RegIdx) (imm : Imm) (s : State) : Host.Outcome State Fault Refusal :=
  cycle controlBeq (operandsI rs rt imm) s

end Sys2Proof.Machine
end

