-- ==== Sys2Proof/Machine/Immediate.lean ====
section
/-! DEFINITION. Register-immediate arithmetic: ADDI, LUI, ORI (spec/42_immediate_arith.md R84 to R87). -/

namespace Sys2Proof.Machine

/-- ADDI: `x[rt] <- x[rs] + sext_32(imm)` modulo `2 ^ 32`, `pc + 1` (R84). -/
def execAddi (rs rt : RegIdx) (imm : Imm) (s : State) : Host.Outcome State Fault Refusal :=
  cycle controlAddi (operandsI rs rt imm) s

/-- LUI: `x[rt] <- zext_32(imm) << 16`, `pc + 1`; `x[rs]` does not matter (R86). -/
def execLui (rs rt : RegIdx) (imm : Imm) (s : State) : Host.Outcome State Fault Refusal :=
  cycle controlLui (operandsI rs rt imm) s

/-- ORI: `x[rt] <- x[rs] | zext_32(imm)`, `pc + 1` (R85). -/
def execOri (rs rt : RegIdx) (imm : Imm) (s : State) : Host.Outcome State Fault Refusal :=
  cycle controlOri (operandsI rs rt imm) s

end Sys2Proof.Machine
end

