-- ==== Sys2Proof/Machine/LoadStore.lean ====
section
/-! DEFINITION. Load and store word: LW, SW (spec/43_load_store.md R88 to R91). -/

namespace Sys2Proof.Machine

/-- LW: `x[rt] <- DM[x[rs] + sext_32(imm)]`, `pc + 1`; the fault where the address is not provisioned (R88, R33). -/
def execLw (rs rt : RegIdx) (imm : Imm) (s : State) : Host.Outcome State Fault Refusal :=
  cycle controlLw (operandsI rs rt imm) s

/-- SW: `DM[x[rs] + sext_32(imm)] <- x[rt]`, `pc + 1`; the fault where the address is not provisioned (R89, R33). -/
def execSw (rs rt : RegIdx) (imm : Imm) (s : State) : Host.Outcome State Fault Refusal :=
  cycle controlSw (operandsI rs rt imm) s

end Sys2Proof.Machine
end

