-- ==== Sys2Proof/Machine/RType.lean ====
section
/-! DEFINITION. Register-register arithmetic: ADD, AND, SLT (spec/41_rtype_arith.md R80 to R83). -/

namespace Sys2Proof.Machine

/-- ADD: `x[rd] <- x[rs] + x[rt]` modulo `2 ^ 32`, `pc + 1` (R80). -/
def execAdd (rs rt rd : RegIdx) (sh : BitVec 5) (s : State) : Host.Outcome State Fault Refusal :=
  cycle controlAdd (operandsR 0x20#6 rs rt rd sh) s

/-- AND: `x[rd] <- x[rs] & x[rt]`, `pc + 1` (R81). -/
def execAnd (rs rt rd : RegIdx) (sh : BitVec 5) (s : State) : Host.Outcome State Fault Refusal :=
  cycle controlAnd (operandsR 0x24#6 rs rt rd sh) s

/-- SLT: `x[rd] <- 1` if `x[rs]` is less than `x[rt]` as unsigned integers, else 0; `pc + 1` (R82). -/
def execSlt (rs rt rd : RegIdx) (sh : BitVec 5) (s : State) : Host.Outcome State Fault Refusal :=
  cycle controlSlt (operandsR 0x2a#6 rs rt rd sh) s

end Sys2Proof.Machine
end

