-- ==== Sys2Proof/Machine/Unsupported.lean ====
section
/-! DEFINITION. Unsupported words, the silent no-operation (spec/45_unsupported.md R96 to R99). -/

namespace Sys2Proof.Machine

/-- An unsupported word: `pc + 1` and nothing else, whatever the word (R96, R97; log 13). -/
def execUnsupported (w : Word) (s : State) : Host.Outcome State Fault Refusal :=
  cycle controlZero (operandsOf w) s

end Sys2Proof.Machine
end

