-- ==== Sys2Proof/Machine/Step.lean ====
section
/-! DEFINITION. One tick of the machine (spec/40_datapath_tick.md R56): fetch, decode, execute. -/

namespace Sys2Proof.Machine

/-- One tick: the word at `pc` is fetched, decoded and executed (R56, R57). A machine marked faulted executes no further
tick: it stays stopped at the fault the mark records (R115; log 5). -/
def step (s : State) : Host.Outcome State Fault Refusal :=
  match s.faulted with
  | some f => .fault f
  | none => exec (decode s.fetch) s

/-- `s` with the 32-bit word `w` loaded at the instruction store entry that the next tick fetches, and the model-level
mark clear, so that the next tick runs it (log 2). An instruction is 32 bits (R40), so the row's `nbits` low bits of `w`
and zeros above them are the word. -/
def State.withFetchWord (s : State) (nbits w : Nat) : State :=
  { s with imem := s.imem.write s.pc.toNat (BitVec.ofNat 32 (w % 2 ^ nbits)), faulted := none }

end Sys2Proof.Machine
end

