-- ==== Sys2Proof/Machine/Run.lean ====
section
/-! DEFINITION. A run (spec/70_reset_and_hazards.md R131): a number of ticks from a state, and the condition a tick leaves
the machine in, faulted or not (spec/60_exceptions.md R115). -/

namespace Sys2Proof.Machine

/-- `NTICKS` ticks from `s`: the final state if every tick completed; if a tick raised the fault, that fault, and the run
has no final state (R111, R131, R115). -/
def runTicks : Nat → State → Host.Outcome State Fault Refusal
  | 0, s => .next s
  | n + 1, s =>
    match step s with
    | .next t => runTicks n t
    | .fault f => .fault f
    | .refused r => .refused r

/-- The condition of the machine after one tick, which can be inspected even when the tick faulted: the next state, or
the state before with the `faulted` mark set and nothing else changed (R115, R116; log 5). No instruction is refused, so
the last case does not arise (log 5). -/
def settle (s : State) : State :=
  match step s with
  | .next t => t
  | .fault f => s.markFaulted f
  | .refused _ => s

/-- The condition of the machine after `n` ticks; a faulted machine stays as it is (R115). -/
def settleTicks : Nat → State → State
  | 0, s => s
  | n + 1, s => settleTicks n (settle s)

end Sys2Proof.Machine
end

