-- ==== Sys2Proof/Machine/Tick.lean ====
section
/-! DEFINITION. The whole tick as one function of the fetched word (spec/40_datapath_tick.md R72), and the read-only views
of a tick: the trace (R76, spec/50_interfaces.md R110) and the ports (R103, R104). `step` decodes to an Instr first and
`tick` looks the word up in the Control Unit; that the two agree is a statement for the provers. -/

namespace Sys2Proof.Machine

/-- The Control Unit's bundle for a word (R59: a function of opcode and function code alone). -/
def controlOf (w : Word) : Control := controlUnit (fieldsOf w).opcode (fieldsOf w).func

/-- `Tick` of R72: fetch, fields, Control Unit, datapath, commit. -/
def tick (s : State) : Host.Outcome State Fault Refusal :=
  cycle (controlOf s.fetch) (operandsOf s.fetch) s

/-- The optional per-cycle trace: the named signals of the tick about to happen, and the fetched word with its eight
fields (R76, R110). Reading it changes nothing. -/
structure Trace where
  instr : Word
  fields : Fields
  signals : Signals
deriving DecidableEq, Repr

/-- The trace of the tick at `s` (R110). -/
def trace (s : State) : Trace :=
  { instr := s.fetch, fields := fieldsOf s.fetch, signals := signals (controlOf s.fetch) (operandsOf s.fetch) s }

/-- The values on the instruction store and data memory ports in the tick (R103, R104). The clock is the step itself and
reset is the initial state of a run, so neither is a value here (R101, R102, D11). -/
structure Ports where
  imemAddr : Word
  imemData : Word
  dmemAddr : Word
  dmemWe : Bool
  dmemWdata : Word
  dmemRdata : Option Word
deriving DecidableEq, Repr

/-- The ports in the tick at `s` (R103, R104). -/
def ports (s : State) : Ports :=
  { imemAddr := s.pc
    imemData := s.fetch
    dmemAddr := (trace s).signals.aluResult
    dmemWe := (trace s).signals.control.memWrite
    dmemWdata := (trace s).signals.rtVal
    dmemRdata := (trace s).signals.memData }

end Sys2Proof.Machine
end

