-- ==== Sys2Proof/Safety.lean ====
section
/-! DEFINITION. The terms the claims use: the invariant of the machine, what an instruction leaves unchanged, and the
registers an instruction uses and writes (spec/10_state.md R12). -/

namespace Sys2Proof.Machine

/-- A memory in canonical form whose indices lie below `bound`. -/
structure Memory.Fits (m : Memory) (bound : Nat) : Prop where
  canonical : m.wf
  below : ∀ p ∈ m, p.1 < bound

/-- The invariant of the machine: the parameters are in their ranges (R6), `pc` is a `PCW`-bit value (R15), the data
memory is canonical and within the provisioned cells (R21, R33), the instruction store is canonical and within its
`2 ^ PCW` entries (R22), and a recorded fault is one R115 can record at this `pc`. -/
structure State.Inv (s : State) : Prop where
  cfg : s.cfg.wf
  pc_lt : s.pc.toNat < 2 ^ s.cfg.pcw
  dmem : s.dmem.Fits s.cfg.dmemWords
  imem : s.imem.Fits (2 ^ s.cfg.pcw)
  fault : ∀ pc addr, s.faulted = some (.dataAddressOutOfRange pc addr) →
    pc = s.pc ∧ s.cfg.dmemWords ≤ addr.toNat

/-- From `s` to `t` every register outside `regs`, every data memory cell outside `cells`, the whole instruction store,
the fault mark and the parameters are unchanged. With the program counter, which a statement gives on its own, these are
all the fields of State. -/
structure UnchangedBut (regs : RegIdx → Prop) (cells : Word → Prop) (s t : State) : Prop where
  reg : ∀ r, ¬ regs r → t.reg r = s.reg r
  cell : ∀ a, ¬ cells a → t.cell a = s.cell a
  imem : t.imem = s.imem
  faulted : t.faulted = s.faulted
  cfg : t.cfg = s.cfg

/-- The tick at `s` stores to the cell `a`: the fetched word is a SW whose effective address is `a`. -/
def StoresTo (s : State) (a : Word) : Prop :=
  ∃ rs rt imm, decode s.fetch = .sw rs rt imm ∧ s.effectiveAddress rs imm = a

/-- The tick at `s` is a LW or SW whose effective address `a` is not provisioned (R33). -/
def AccessesOutside (s : State) (a : Word) : Prop :=
  ∃ rs rt imm, (decode s.fetch = .lw rs rt imm ∨ decode s.fetch = .sw rs rt imm) ∧
    s.effectiveAddress rs imm = a ∧ s.cfg.dmemWords ≤ a.toNat

/-- No register, or no cell: the empty set of places of a frame. -/
def nowhere {α : Type} (_ : α) : Prop := False

end Sys2Proof.Machine

namespace Sys2Proof

/-- The registers whose values an instruction uses (R12). -/
def Instr.uses : Instr → List RegIdx
  | .add rs rt _ _ => [rs, rt]
  | .and rs rt _ _ => [rs, rt]
  | .slt rs rt _ _ => [rs, rt]
  | .addi rs _ _ => [rs]
  | .lui _ _ _ => []
  | .ori rs _ _ => [rs]
  | .lw rs _ _ => [rs]
  | .sw rs rt _ => [rs, rt]
  | .beq rs rt _ => [rs, rt]
  | .unsupported _ => []

/-- The register an instruction writes, if it writes one (R12). -/
def Instr.writes : Instr → Option RegIdx
  | .add _ _ rd _ => some rd
  | .and _ _ rd _ => some rd
  | .slt _ _ rd _ => some rd
  | .addi _ rt _ => some rt
  | .lui _ rt _ => some rt
  | .ori _ rt _ => some rt
  | .lw _ rt _ => some rt
  | .sw _ _ _ => none
  | .beq _ _ _ => none
  | .unsupported _ => none

end Sys2Proof
end

