-- ==== Sys2Proof/Certificates/Slice0/Obligations.lean ====
section
/-! DEFINITION. The statements for the provers. Each docstring names the rules of spec/ it formalises. -/

open Sys2Proof Sys2Proof.Machine

/-! ## The ten rows of the opcode table: selection, control bundle, effect and frame -/

/-- R80. ADD: the words of its row, its control bundle, and its effect with everything else unchanged; it completes in
every state (no flag, no exception). -/
def Obligations.AddRowBundleAndEffect : Prop :=
  (∀ w : Word, w &&& 0xFC00003F#32 = 0x00000020#32 ↔ ∃ rs rt rd sh, decode w = .add rs rt rd sh) ∧
  controlUnit 0x00#6 0x20#6 =
      { aluOp := .add, memToReg := false, memWrite := false, aluSrc := .reg,
        regWrite := true, branch := false, regDst := true } ∧
  ∀ (rs rt rd : RegIdx) (sh : BitVec 5) (s : State), ∃ t, exec (.add rs rt rd sh) s = .next t ∧
    t.reg rd = s.reg rs + s.reg rt ∧ t.pc = truncPcw s.cfg.pcw (s.pc + 1#32) ∧ UnchangedBut (· = rd) nowhere s t

/-- R81. AND: the words of its row, its control bundle, and its effect with everything else unchanged. -/
def Obligations.AndRowBundleAndEffect : Prop :=
  (∀ w : Word, w &&& 0xFC00003F#32 = 0x00000024#32 ↔ ∃ rs rt rd sh, decode w = .and rs rt rd sh) ∧
  controlUnit 0x00#6 0x24#6 =
      { aluOp := .and, memToReg := false, memWrite := false, aluSrc := .reg,
        regWrite := true, branch := false, regDst := true } ∧
  ∀ (rs rt rd : RegIdx) (sh : BitVec 5) (s : State), ∃ t, exec (.and rs rt rd sh) s = .next t ∧
    (∀ k, (t.reg rd).getLsbD k = ((s.reg rs).getLsbD k && (s.reg rt).getLsbD k)) ∧
    t.pc = truncPcw s.cfg.pcw (s.pc + 1#32) ∧ UnchangedBut (· = rd) nowhere s t

/-- R82. SLT: the words of its row, its control bundle, and its effect: the comparison is of unsigned integers and the
whole register is written. -/
def Obligations.SltRowBundleAndEffect : Prop :=
  (∀ w : Word, w &&& 0xFC00003F#32 = 0x0000002A#32 ↔ ∃ rs rt rd sh, decode w = .slt rs rt rd sh) ∧
  controlUnit 0x00#6 0x2a#6 =
      { aluOp := .lessThan, memToReg := false, memWrite := false, aluSrc := .reg,
        regWrite := true, branch := false, regDst := true } ∧
  ∀ (rs rt rd : RegIdx) (sh : BitVec 5) (s : State), ∃ t, exec (.slt rs rt rd sh) s = .next t ∧
    t.reg rd = (if (s.reg rs).toNat < (s.reg rt).toNat then 0x00000001#32 else 0x00000000#32) ∧
    t.pc = truncPcw s.cfg.pcw (s.pc + 1#32) ∧ UnchangedBut (· = rd) nowhere s t

/-- R84. ADDI: the words of its row, its control bundle for any function code, and its effect. -/
def Obligations.AddiRowBundleAndEffect : Prop :=
  (∀ w : Word, w &&& 0xFC000000#32 = 0x20000000#32 ↔ ∃ rs rt imm, decode w = .addi rs rt imm) ∧
  (∀ func, controlUnit 0x08#6 func =
      { aluOp := .add, memToReg := false, memWrite := false, aluSrc := .imm,
        regWrite := true, branch := false, regDst := false }) ∧
  ∀ (rs rt : RegIdx) (imm : Imm) (s : State), ∃ t, exec (.addi rs rt imm) s = .next t ∧
    t.reg rt = s.reg rs + sext32 imm ∧ t.pc = truncPcw s.cfg.pcw (s.pc + 1#32) ∧ UnchangedBut (· = rt) nowhere s t

/-- R85. ORI: the words of its row, its control bundle for any function code, and its effect: the upper half of `x[rs]`
passes and the lower half is ORed with the immediate. -/
def Obligations.OriRowBundleAndEffect : Prop :=
  (∀ w : Word, w &&& 0xFC000000#32 = 0x34000000#32 ↔ ∃ rs rt imm, decode w = .ori rs rt imm) ∧
  (∀ func, controlUnit 0x0d#6 func =
      { aluOp := .or, memToReg := false, memWrite := false, aluSrc := .imm,
        regWrite := true, branch := false, regDst := false }) ∧
  ∀ (rs rt : RegIdx) (imm : Imm) (s : State), ∃ t, exec (.ori rs rt imm) s = .next t ∧
    t.reg rt = s.reg rs ||| zext32 imm ∧
    (t.reg rt).extractLsb' 16 16 = (s.reg rs).extractLsb' 16 16 ∧
    (t.reg rt).extractLsb' 0 16 = (s.reg rs).extractLsb' 0 16 ||| imm ∧
    t.pc = truncPcw s.cfg.pcw (s.pc + 1#32) ∧ UnchangedBut (· = rt) nowhere s t

/-- R86. LUI: the words of its row, its control bundle for any function code, and its effect: the immediate in the upper
half, zeros below, whatever `rs` holds. -/
def Obligations.LuiRowBundleAndEffect : Prop :=
  (∀ w : Word, w &&& 0xFC000000#32 = 0x3C000000#32 ↔ ∃ rs rt imm, decode w = .lui rs rt imm) ∧
  (∀ func, controlUnit 0x0f#6 func =
      { aluOp := .shiftImm, memToReg := false, memWrite := false, aluSrc := .imm,
        regWrite := true, branch := false, regDst := false }) ∧
  ∀ (rs rt : RegIdx) (imm : Imm) (s : State), ∃ t, exec (.lui rs rt imm) s = .next t ∧
    t.reg rt = imm ++ 0x0000#16 ∧ t.pc = truncPcw s.cfg.pcw (s.pc + 1#32) ∧ UnchangedBut (· = rt) nowhere s t

/-- R88, R90; the fault is the spec's own decision D7 (log 5). LW: the words of its row, its control bundle for any function code, its effect at a provisioned address
(the base register plus the sign-extended displacement, as a cell address), and the fault, with nothing committed, at any
other. -/
def Obligations.LwRowBundleEffectAndFault : Prop :=
  (∀ w : Word, w &&& 0xFC000000#32 = 0x8C000000#32 ↔ ∃ rs rt imm, decode w = .lw rs rt imm) ∧
  (∀ func, controlUnit 0x23#6 func =
      { aluOp := .add, memToReg := true, memWrite := false, aluSrc := .imm,
        regWrite := true, branch := false, regDst := false }) ∧
  (∀ (rs rt : RegIdx) (imm : Imm) (s : State), (s.reg rs + sext32 imm).toNat < s.cfg.dmemWords →
    ∃ t, exec (.lw rs rt imm) s = .next t ∧
      t.reg rt = s.cell (s.reg rs + sext32 imm) ∧ t.pc = truncPcw s.cfg.pcw (s.pc + 1#32) ∧
      UnchangedBut (· = rt) nowhere s t) ∧
  (∀ (rs rt : RegIdx) (imm : Imm) (s : State), s.cfg.dmemWords ≤ (s.reg rs + sext32 imm).toNat →
    exec (.lw rs rt imm) s = .fault (.dataAddressOutOfRange s.pc (s.reg rs + sext32 imm)) ∧
    (s.faulted = none → decode s.fetch = .lw rs rt imm →
      settle s = { s with faulted := some (.dataAddressOutOfRange s.pc (s.reg rs + sext32 imm)) }))

/-- R89, R90; the fault is the spec's own decision D7 and the two don't-care signals are 0 by its decision D8 (log 5,
log 9). SW: the words of its row, its control bundle for any function code, its effect at a provisioned address
(only that cell changes, no register does), and the fault, with nothing committed, at any other. -/
def Obligations.SwRowBundleEffectAndFault : Prop :=
  (∀ w : Word, w &&& 0xFC000000#32 = 0xAC000000#32 ↔ ∃ rs rt imm, decode w = .sw rs rt imm) ∧
  (∀ func, controlUnit 0x2b#6 func =
      { aluOp := .add, memToReg := false, memWrite := true, aluSrc := .imm,
        regWrite := false, branch := false, regDst := false }) ∧
  (∀ (rs rt : RegIdx) (imm : Imm) (s : State), (s.reg rs + sext32 imm).toNat < s.cfg.dmemWords →
    ∃ t, exec (.sw rs rt imm) s = .next t ∧
      t.cell (s.reg rs + sext32 imm) = s.reg rt ∧ t.pc = truncPcw s.cfg.pcw (s.pc + 1#32) ∧
      UnchangedBut nowhere (· = s.reg rs + sext32 imm) s t) ∧
  (∀ (rs rt : RegIdx) (imm : Imm) (s : State), s.cfg.dmemWords ≤ (s.reg rs + sext32 imm).toNat →
    exec (.sw rs rt imm) s = .fault (.dataAddressOutOfRange s.pc (s.reg rs + sext32 imm)) ∧
    (s.faulted = none → decode s.fetch = .sw rs rt imm →
      settle s = { s with faulted := some (.dataAddressOutOfRange s.pc (s.reg rs + sext32 imm)) }))

/-- R92. BEQ: the words of its row, its control bundle for any function code, and its effect: taken exactly when the two
registers are equal in all 32 bits; no register and no cell changes. (R92 fixes the don't-care `reg_dst` to 0, the spec's
decision D8, log 9.) -/
def Obligations.BeqRowBundleAndEffect : Prop :=
  (∀ w : Word, w &&& 0xFC000000#32 = 0x10000000#32 ↔ ∃ rs rt imm, decode w = .beq rs rt imm) ∧
  (∀ func, controlUnit 0x04#6 func =
      { aluOp := .subtract, memToReg := false, memWrite := false, aluSrc := .reg,
        regWrite := false, branch := true, regDst := false }) ∧
  ∀ (rs rt : RegIdx) (imm : Imm) (s : State), ∃ t, exec (.beq rs rt imm) s = .next t ∧
    t.pc = (if s.reg rs = s.reg rt then truncPcw s.cfg.pcw (s.pc + 1#32 + sext32 imm)
      else truncPcw s.cfg.pcw (s.pc + 1#32)) ∧
    UnchangedBut nowhere nowhere s t

/-- R96. An unsupported word: the words of no row, the all-zero bundle for every pair outside the table, and the effect:
the program counter advances and nothing else changes, whatever the word. -/
def Obligations.UnsupportedWordsBundleAndEffect : Prop :=
  (∀ w : Word, decode w = .unsupported w ↔
    (w.toNat / 2 ^ 26 ∉ [0x00, 0x04, 0x08, 0x0d, 0x0f, 0x23, 0x2b] ∨
      w.toNat / 2 ^ 26 = 0x00 ∧ w.toNat % 2 ^ 6 ∉ [0x20, 0x24, 0x2a])) ∧
  (∀ opcode func : Code6, (opcode.toNat ∉ [0x00, 0x04, 0x08, 0x0d, 0x0f, 0x23, 0x2b] ∨
      opcode.toNat = 0x00 ∧ func.toNat ∉ [0x20, 0x24, 0x2a]) →
    controlUnit opcode func =
      { aluOp := .add, memToReg := false, memWrite := false, aluSrc := .reg,
        regWrite := false, branch := false, regDst := false }) ∧
  ∀ (w : Word) (s : State), ∃ t, exec (.unsupported w) s = .next t ∧
    t.pc = truncPcw s.cfg.pcw (s.pc + 1#32) ∧ UnchangedBut nowhere nowhere s t

/-! ## Encoding -/

/-- R41. The eight fields of a word are its fixed bit ranges, as integers. -/
def Obligations.FieldsAreTheBitRanges : Prop :=
  ∀ w : Word, (fieldsOf w).opcode.toNat = w.toNat / 2 ^ 26 ∧
    (fieldsOf w).rs.toNat = w.toNat / 2 ^ 21 % 2 ^ 5 ∧ (fieldsOf w).rt.toNat = w.toNat / 2 ^ 16 % 2 ^ 5 ∧
    (fieldsOf w).rd.toNat = w.toNat / 2 ^ 11 % 2 ^ 5 ∧ (fieldsOf w).sh.toNat = w.toNat / 2 ^ 6 % 2 ^ 5 ∧
    (fieldsOf w).func.toNat = w.toNat % 2 ^ 6 ∧ (fieldsOf w).imm.toNat = w.toNat % 2 ^ 16 ∧
    (fieldsOf w).addr.toNat = w.toNat % 2 ^ 26

/-- R41, R46. The operands of a decoded instruction are the fields of its word. -/
def Obligations.DecodedOperandsAreTheFields : Prop :=
  ∀ w : Word,
    (∀ rs rt rd sh, (decode w = .add rs rt rd sh ∨ decode w = .and rs rt rd sh ∨ decode w = .slt rs rt rd sh) →
      rs = (fieldsOf w).rs ∧ rt = (fieldsOf w).rt ∧ rd = (fieldsOf w).rd ∧ sh = (fieldsOf w).sh) ∧
    (∀ rs rt imm, (decode w = .addi rs rt imm ∨ decode w = .lui rs rt imm ∨ decode w = .ori rs rt imm ∨
        decode w = .lw rs rt imm ∨ decode w = .sw rs rt imm ∨ decode w = .beq rs rt imm) →
      rs = (fieldsOf w).rs ∧ rt = (fieldsOf w).rt ∧ imm = (fieldsOf w).imm) ∧
    (∀ v, decode w = .unsupported v → v = w)

/-- R54, R46. Decoding the word of a well-formed instruction gives the instruction back, for all ten kinds and every
value of every field. -/
def Obligations.DecodeOfEncode : Prop := ∀ i : Instr, i.wf = true → decode (encode i) = i

/-- R43, R48. Decoding is total: every word is a well-formed instruction whose word it is, so no bit of a word is lost. -/
def Obligations.EncodeOfDecode : Prop := ∀ w : Word, (decode w).wf = true ∧ encode (decode w) = w

/-- R55. At most one row of the opcode map fits a word. -/
def Obligations.RowsAreMutuallyExclusive : Prop :=
  ∀ (w : Word) (r q : OpcodeRow), r ∈ opcodeRows → q ∈ opcodeRows →
    w &&& r.mask = r.pattern → w &&& q.mask = q.pattern → r = q

/-- The words of spec/95_test_vectors.md, part 2, table Decode, decode as that table says. -/
def Obligations.DecodeTableVectors : Prop :=
  decode 0x00221820#32 = .add 1 2 3 0 ∧ decode 0x00221FE0#32 = .add 1 2 3 31 ∧
  decode 0x2021FFFF#32 = .addi 1 1 0xFFFF#16 ∧ decode 0x8C22FFFC#32 = .lw 1 2 0xFFFC#16 ∧
  decode 0x1000FFFF#32 = .beq 0 0 0xFFFF#16 ∧ decode 0x08000005#32 = .unsupported 0x08000005#32 ∧
  decode 0xFFFFFFFF#32 = .unsupported 0xFFFFFFFF#32 ∧ decode 0x00000000#32 = .unsupported 0x00000000#32

/-- R47. The field `sh` of the R-type instructions and the field `rs` of LUI do not matter. -/
def Obligations.IgnoredFieldsDoNotMatter : Prop :=
  ∀ (rs rt rd r : RegIdx) (sh sh' : BitVec 5) (imm : Imm) (s : State),
    exec (.add rs rt rd sh) s = exec (.add rs rt rd sh') s ∧
    exec (.and rs rt rd sh) s = exec (.and rs rt rd sh') s ∧
    exec (.slt rs rt rd sh) s = exec (.slt rs rt rd sh') s ∧
    exec (.lui rs rt imm) s = exec (.lui r rt imm) s

/-- R97. The next state does not depend on which unsupported word was fetched. -/
def Obligations.UnsupportedWordsAreEquivalent : Prop :=
  ∀ (w v : Word) (s : State), exec (.unsupported w) s = exec (.unsupported v) s

/-! ## The tick -/

/-- R56, R57. A machine that is not faulted fetches the word at `pc`, decodes it and executes that instruction; nothing
is added around it. -/
def Obligations.StepRunsTheDecodedInstruction : Prop :=
  ∀ (s : State) (i : Instr), s.faulted = none → decode (s.imWord s.pc) = i → step s = exec i s

/-- R72. The machine's step is the one tick function of the datapath, for every word: fields, Control Unit, ALU, memory
stage, write-back, program-counter updater and commit. -/
def Obligations.StepIsTheDatapathTick : Prop := ∀ s : State, s.faulted = none → step s = tick s

/-- R64. The ALU's six operations by their selectors, as integer arithmetic; that selectors 6 and 7 have no operation
is R65, the spec's own decision D9 (log 10). -/
def Obligations.AluOperationsBySelector : Prop :=
  ∀ (a b : Word) (imm : Imm),
    (∃ op, AluOp.ofSelector 0#3 = some op ∧ (alu op a b imm).toNat = (a.toNat + b.toNat) % 2 ^ 32) ∧
    (∃ op, AluOp.ofSelector 1#3 = some op ∧ ∀ k, (alu op a b imm).getLsbD k = (a.getLsbD k && b.getLsbD k)) ∧
    (∃ op, AluOp.ofSelector 2#3 = some op ∧ (alu op a b imm).toNat = imm.toNat * 2 ^ 16) ∧
    (∃ op, AluOp.ofSelector 3#3 = some op ∧ ∀ k, (alu op a b imm).getLsbD k = (a.getLsbD k || b.getLsbD k)) ∧
    (∃ op, AluOp.ofSelector 4#3 = some op ∧ (alu op a b imm).toNat = if a.toNat < b.toNat then 1 else 0) ∧
    (∃ op, AluOp.ofSelector 5#3 = some op ∧ ((alu op a b imm).toNat : Int) = ((b.toNat : Int) - a.toNat) % 2 ^ 32) ∧
    AluOp.ofSelector 6#3 = none ∧ AluOp.ofSelector 7#3 = none

/-- R8, R44. The two extensions and the truncation as integers. -/
def Obligations.ExtensionsAndTruncation : Prop :=
  (∀ v : Imm, (sext32 v).toNat = if v.toNat < 2 ^ 15 then v.toNat else 0xFFFF0000 + v.toNat) ∧
  (∀ v : Imm, (zext32 v).toNat = v.toNat) ∧
  (∀ (n : Nat) (v : Word), (truncPcw n v).toNat = v.toNat % 2 ^ n)

/-- R103, R104 (the ports are the spec's own decision D12, log 17). The ports of a tick that completes: the instruction
port presents `IM[pc]`; in every tick the data address is the ALU result of the word's own fields and bundle and the write
data is `x[rt]`; write-enable is set for SW alone. With it, the cell at the data address takes the write data and no other
cell changes; without it, the data memory is unchanged and the word read at a provisioned address is the cell as committed
before the tick. For SW and LW the address is the effective address, and the word read for LW is the one its destination
register takes. -/
def Obligations.PortsCarryTheTick : Prop :=
  ∀ s t : State, step s = .next t →
    (ports s).imemAddr = s.pc ∧ (ports s).imemData = s.imWord (ports s).imemAddr ∧
    (ports s).dmemAddr =
      alu (controlUnit (fieldsOf s.fetch).opcode (fieldsOf s.fetch).func).aluOp (s.reg (fieldsOf s.fetch).rs)
        (operandB (controlUnit (fieldsOf s.fetch).opcode (fieldsOf s.fetch).func).aluSrc (s.reg (fieldsOf s.fetch).rt)
          (extendImm (controlUnit (fieldsOf s.fetch).opcode (fieldsOf s.fetch).func).aluOp (fieldsOf s.fetch).imm))
        (fieldsOf s.fetch).imm ∧
    (ports s).dmemWdata = s.reg (fieldsOf s.fetch).rt ∧
    ((ports s).dmemWe = true ↔ ∃ rs rt imm, decode s.fetch = .sw rs rt imm) ∧
    ((ports s).dmemWe = true → t.cell (ports s).dmemAddr = (ports s).dmemWdata ∧
      ∀ a, a ≠ (ports s).dmemAddr → t.cell a = s.cell a) ∧
    ((ports s).dmemWe = false → t.dmem = s.dmem ∧
      ((ports s).dmemAddr.toNat < s.cfg.dmemWords → (ports s).dmemRdata = some (s.cell (ports s).dmemAddr))) ∧
    (∀ rs rt imm, decode s.fetch = .sw rs rt imm →
      (ports s).dmemAddr = s.effectiveAddress rs imm ∧ (ports s).dmemWdata = s.reg rt) ∧
    (∀ rs rt imm, decode s.fetch = .lw rs rt imm →
      (ports s).dmemAddr = s.effectiveAddress rs imm ∧ (ports s).dmemRdata = some (t.reg rt))

/-! ## The program counter -/

/-- R16, R94; the modulus is the spec's own decision D3 (log 8). The program counter after any instruction, as an integer
modulo `2 ^ PCW`: a BEQ of equal registers adds `1 + imm` (signed), everything else adds 1. -/
def Obligations.PcAdvancesModuloPcw : Prop :=
  ∀ (i : Instr) (s t : State), s.cfg.wf → exec i s = .next t →
    (∀ rs rt imm, i = .beq rs rt imm → s.reg rs = s.reg rt →
      (t.pc.toNat : Int) = ((s.pc.toNat : Int) + 1 + imm.toInt) % 2 ^ s.cfg.pcw) ∧
    ((∀ rs rt imm, i = .beq rs rt imm → s.reg rs ≠ s.reg rt) → t.pc.toNat = (s.pc.toNat + 1) % 2 ^ s.cfg.pcw)

/-- R132 (a), R92. A machine at a taken branch to itself is in a stable state: every later tick leaves the whole state
as it is. -/
def Obligations.SelfBranchHoldsTheState : Prop :=
  ∀ (s : State) (r : RegIdx), s.cfg.wf → s.pc.toNat < 2 ^ s.cfg.pcw → s.faulted = none →
    decode s.fetch = .beq r r 0xFFFF#16 → ∀ n, runTicks n s = .next s

/-- R99, R132 (b). Through a stretch of unsupported words, of any length and across the top of the instruction store,
only the program counter changes: it climbs by 1 a tick, modulo `2 ^ PCW`. -/
def Obligations.UnsupportedStretchOnlyAdvances : Prop :=
  ∀ (n : Nat) (s : State), s.cfg.wf → s.pc.toNat < 2 ^ s.cfg.pcw → s.faulted = none →
    (∀ k < n, ∃ w, decode (s.imWord (BitVec.ofNat 32 ((s.pc.toNat + k) % 2 ^ s.cfg.pcw))) = .unsupported w) →
    runTicks n s = .next { s with pc := BitVec.ofNat 32 ((s.pc.toNat + n) % 2 ^ s.cfg.pcw) }

/-! ## Registers and memory, over all instructions and over runs -/

/-- R12, R69. An instruction that completes changes no register but the one that the table of R12 says it writes. -/
def Obligations.OnlyTheDestinationChanges : Prop :=
  ∀ (i : Instr) (s t : State) (r : RegIdx), exec i s = .next t → t.reg r ≠ s.reg r → i.writes = some r

/-- R12. A register that the table of R12 does not say an instruction uses has no influence on it: changing that register
first changes nothing in the result but that register itself, unless the instruction overwrites it. -/
def Obligations.UnusedRegisterHasNoInfluence : Prop :=
  ∀ (i : Instr) (s t : State) (r : RegIdx) (v : Word), r ∉ i.uses → exec i s = .next t →
    exec i (s.setReg r v) = .next (if i.writes = some r then t else t.setReg r v)

/-- R14. A register keeps its value through any number of ticks in which no instruction writes it. -/
def Obligations.RegisterKeepsItsValue : Prop :=
  ∀ (n : Nat) (s t : State) (r : RegIdx), runTicks n s = .next t →
    (∀ k < n, ∀ u, runTicks k s = .next u → (decode u.fetch).writes ≠ some r) → t.reg r = s.reg r

/-- R21. Only SW writes the data memory, and only the cell at its effective address. -/
def Obligations.OnlyStoreWritesDataMemory : Prop :=
  ∀ (i : Instr) (s t : State) (a : Word), exec i s = .next t → t.cell a ≠ s.cell a →
    ∃ rs rt imm, i = .sw rs rt imm ∧ a = s.reg rs + sext32 imm

/-- R21, R31, R32. Only LW uses what is read from the data memory: every other instruction, run with the whole data memory
replaced by any other, gives the same next state but for the data memory, which is then the replacement with the one store
of a SW, or the replacement itself. -/
def Obligations.OnlyLoadUsesDataMemory : Prop :=
  ∀ (i : Instr) (s t : State) (m : Memory), (∀ rs rt imm, i ≠ .lw rs rt imm) → exec i s = .next t →
    (∀ rs rt imm, i = .sw rs rt imm →
      exec i { s with dmem := m } =
        .next { t with dmem := m.write (s.effectiveAddress rs imm).toNat (s.reg rt) }) ∧
    ((∀ rs rt imm, i ≠ .sw rs rt imm) → exec i { s with dmem := m } = .next { t with dmem := m })

/-- R91. A value stored to a cell is the value a later load from it returns, after any number of ticks none of which
stores to that cell. -/
def Obligations.StoreThenLaterLoad : Prop :=
  ∀ (s t u : State) (rs rt rs' rt' : RegIdx) (imm imm' : Imm) (n : Nat), exec (.sw rs rt imm) s = .next t →
    runTicks n t = .next u →
    (∀ k < n, ∀ v, runTicks k t = .next v → ¬ StoresTo v (s.effectiveAddress rs imm)) →
    u.effectiveAddress rs' imm' = s.effectiveAddress rs imm →
    ∃ v, exec (.lw rs' rt' imm') u = .next v ∧ v.reg rt' = s.reg rt

/-- R36 (1), R24. A cell to which no tick has stored since reset holds 0. -/
def Obligations.NeverStoredCellHoldsZero : Prop :=
  ∀ (cfg : Config) (program : List Word) (n : Nat) (u : State) (a : Word),
    runTicks n (State.resetWith cfg program) = .next u →
    (∀ k < n, ∀ v, runTicks k (State.resetWith cfg program) = .next v → ¬ StoresTo v a) → u.cell a = 0#32

/-- R87. LUI and then ORI of the same register build the 32-bit constant of the two immediates in two ticks. -/
def Obligations.LuiThenOriBuildsConstant : Prop :=
  ∀ (r q : RegIdx) (hi lo : Imm) (s : State), ∃ t u, exec (.lui q r hi) s = .next t ∧
    exec (.ori r r lo) t = .next u ∧ u.reg r = hi ++ lo ∧ UnchangedBut (· = r) nowhere s u

/-- R39. No run changes the instruction store: every fetch of an index returns the same word. -/
def Obligations.InstructionStoreIsConstant : Prop :=
  ∀ (n : Nat) (s t : State), runTicks n s = .next t →
    t.imem = s.imem ∧ ∀ i, t.imWord i = s.imWord i

/-! ## The fault -/

/-- R115, R33, the spec's own decision D7 (log 5). A tick raises the fault exactly when its instruction is a LW or SW whose effective address is at or above
`DMEM_WORDS`; it then commits nothing but the mark, no further tick runs, the mark stays, and no run goes through it. With
`DMEM_WORDS = 2 ^ 32` it cannot occur. -/
def Obligations.OutOfRangeAccessFaults : Prop :=
  (∀ (s : State) (f : Fault), s.faulted = none →
    (step s = .fault f ↔ ∃ a, AccessesOutside s a ∧ f = .dataAddressOutOfRange s.pc a)) ∧
  (∀ (s : State) (f : Fault), step s = .fault f →
    settle s = { s with faulted := some f } ∧ step (settle s) = .fault f ∧
    (∀ n, settleTicks n (settle s) = settle s) ∧ (∀ n, runTicks (n + 1) s = .fault f)) ∧
  (∀ s : State, s.faulted = none → s.cfg.dmemWords = 2 ^ 32 → ∃ t, step s = .next t)

/-- R56, R113, R115. With the full data memory the machine never stops: from every state that is not faulted, every
number of ticks completes. -/
def Obligations.FullMemoryMachineNeverStops : Prop :=
  ∀ (n : Nat) (s : State), s.faulted = none → s.cfg.dmemWords = 2 ^ 32 → ∃ t, runTicks n s = .next t ∧ t.faulted = none

/-- R49, R113, R125. No instruction of any word is refused or reported as illegal: no run ends in a refusal. -/
def Obligations.NoRunIsRefused : Prop :=
  ∀ (n : Nat) (s : State) (r : Refusal), runTicks n s ≠ .refused r

/-! ## Reset and invariants -/

/-- R24, R106; `pc` 0 and the zeros beyond the program are the spec's own decisions D5 and D4, the default parameters
D2 and D6 (log 1, log 6, log 7). The state after the load and reset: every register, every cell and `pc` are 0, the instruction store holds
the program from index 0 on and 0 beyond it, no fault is marked; and the reset state is that of the empty program with
the default parameters. -/
def Obligations.ResetStateIsAllZero : Prop :=
  (∀ (cfg : Config) (program : List Word),
    (∀ r, (State.resetWith cfg program).reg r = 0x00000000#32) ∧
    (∀ a, (State.resetWith cfg program).cell a = 0x00000000#32) ∧
    (State.resetWith cfg program).pc = 0#32 ∧
    (∀ i : Word, (State.resetWith cfg program).imWord i = program.getD i.toNat 0x00000000#32) ∧
    (State.resetWith cfg program).faulted = none ∧ (State.resetWith cfg program).cfg = cfg) ∧
  State.reset = State.resetWith { pcw := 32, dmemWords := 2 ^ 32 } []

/-- R24 with the default parameters (log 1). The reset state meets the invariant of the machine (parameters in range, `pc` a `PCW`-bit value, memories canonical
and within their spaces). -/
def Obligations.ResetMeetsTheInvariant : Prop := State.reset.Inv

/-- So does every reset state with parameters in their ranges (R6) and a program that the store can hold. -/
def Obligations.LoadedResetMeetsTheInvariant : Prop :=
  ∀ (cfg : Config) (program : List Word), cfg.wf → program.length ≤ 2 ^ cfg.pcw → (State.resetWith cfg program).Inv

/-- Every tick keeps the invariant, from every state that meets it: `pc` stays a `PCW`-bit value (R15), the data memory
stays canonical and within the provisioned cells (R21, R33), the instruction store stays within its entries (R22). -/
def Obligations.StepKeepsTheInvariant : Prop := ∀ s t : State, s.Inv → step s = .next t → t.Inv

/-- The condition a tick leaves the machine in, faulted or not, keeps the invariant; so a recorded fault always names the
`pc` of the faulting instruction (R116) and an address that is not provisioned (R115). -/
def Obligations.SettleKeepsTheInvariant : Prop := ∀ (n : Nat) (s : State), s.Inv → (settleTicks n s).Inv

/-- R131, R115. The two views of a run agree: from a state that is not faulted, `n` ticks have a final state exactly when
the machine's condition after them is not faulted, and then that condition is the final state. -/
def Obligations.RunAndSettleAgree : Prop :=
  ∀ (n : Nat) (s t : State), s.faulted = none →
    (runTicks n s = .next t ↔ settleTicks n s = t ∧ t.faulted = none)
end

