-- ==== Sys2Proof/Laws/State.lean ====
section
/-! SUPPORT. One lemma per field and per update of State, each true by definition, and the laws of the register file. -/

namespace Sys2Proof.Machine

@[simp] theorem State.setReg_pc (s : State) (i : RegIdx) (v : Word) : (s.setReg i v).pc = s.pc := rfl
@[simp] theorem State.setReg_dmem (s : State) (i : RegIdx) (v : Word) : (s.setReg i v).dmem = s.dmem := rfl
@[simp] theorem State.setReg_imem (s : State) (i : RegIdx) (v : Word) : (s.setReg i v).imem = s.imem := rfl
@[simp] theorem State.setReg_faulted (s : State) (i : RegIdx) (v : Word) : (s.setReg i v).faulted = s.faulted := rfl
@[simp] theorem State.setReg_cfg (s : State) (i : RegIdx) (v : Word) : (s.setReg i v).cfg = s.cfg := rfl
@[simp] theorem State.setReg_cell (s : State) (i : RegIdx) (v a : Word) : (s.setReg i v).cell a = s.cell a := rfl
@[simp] theorem State.setReg_imWord (s : State) (i : RegIdx) (v a : Word) : (s.setReg i v).imWord a = s.imWord a := rfl
@[simp] theorem State.setReg_fetch (s : State) (i : RegIdx) (v : Word) : (s.setReg i v).fetch = s.fetch := rfl
@[simp] theorem State.setReg_inRange (s : State) (i : RegIdx) (v a : Word) : (s.setReg i v).inRange a = s.inRange a := rfl

@[simp] theorem State.setCell_x (s : State) (a v : Word) : (s.setCell a v).x = s.x := rfl
@[simp] theorem State.setCell_pc (s : State) (a v : Word) : (s.setCell a v).pc = s.pc := rfl
@[simp] theorem State.setCell_dmem (s : State) (a v : Word) : (s.setCell a v).dmem = s.dmem.write a.toNat v := rfl
@[simp] theorem State.setCell_imem (s : State) (a v : Word) : (s.setCell a v).imem = s.imem := rfl
@[simp] theorem State.setCell_faulted (s : State) (a v : Word) : (s.setCell a v).faulted = s.faulted := rfl
@[simp] theorem State.setCell_cfg (s : State) (a v : Word) : (s.setCell a v).cfg = s.cfg := rfl
@[simp] theorem State.setCell_reg (s : State) (a v : Word) (r : RegIdx) : (s.setCell a v).reg r = s.reg r := rfl
@[simp] theorem State.setCell_imWord (s : State) (a v i : Word) : (s.setCell a v).imWord i = s.imWord i := rfl

@[simp] theorem State.setPc_x (s : State) (t : Word) : (s.setPc t).x = s.x := rfl
@[simp] theorem State.setPc_pc (s : State) (t : Word) : (s.setPc t).pc = t := rfl
@[simp] theorem State.setPc_dmem (s : State) (t : Word) : (s.setPc t).dmem = s.dmem := rfl
@[simp] theorem State.setPc_imem (s : State) (t : Word) : (s.setPc t).imem = s.imem := rfl
@[simp] theorem State.setPc_faulted (s : State) (t : Word) : (s.setPc t).faulted = s.faulted := rfl
@[simp] theorem State.setPc_cfg (s : State) (t : Word) : (s.setPc t).cfg = s.cfg := rfl
@[simp] theorem State.setPc_reg (s : State) (t : Word) (r : RegIdx) : (s.setPc t).reg r = s.reg r := rfl
@[simp] theorem State.setPc_cell (s : State) (t a : Word) : (s.setPc t).cell a = s.cell a := rfl
@[simp] theorem State.setPc_imWord (s : State) (t i : Word) : (s.setPc t).imWord i = s.imWord i := rfl

@[simp] theorem State.markFaulted_x (s : State) (f : Fault) : (s.markFaulted f).x = s.x := rfl
@[simp] theorem State.markFaulted_pc (s : State) (f : Fault) : (s.markFaulted f).pc = s.pc := rfl
@[simp] theorem State.markFaulted_dmem (s : State) (f : Fault) : (s.markFaulted f).dmem = s.dmem := rfl
@[simp] theorem State.markFaulted_imem (s : State) (f : Fault) : (s.markFaulted f).imem = s.imem := rfl
@[simp] theorem State.markFaulted_faulted (s : State) (f : Fault) : (s.markFaulted f).faulted = some f := rfl
@[simp] theorem State.markFaulted_cfg (s : State) (f : Fault) : (s.markFaulted f).cfg = s.cfg := rfl

/-- A register reads the value written to it last, and no write reaches another register; register 0 is no exception
(R13, R14). -/
theorem State.reg_setReg (s : State) (i r : RegIdx) (v : Word) :
    (s.setReg i v).reg r = if r = i then v else s.reg r := by
  simp only [State.reg, State.setReg, Vector.getElem_set, ← BitVec.toNat_inj, eq_comm]

@[simp] theorem State.reg_setReg_same (s : State) (i : RegIdx) (v : Word) : (s.setReg i v).reg i = v := by
  simp [State.reg_setReg]

theorem State.reg_setReg_other (s : State) {i r : RegIdx} (v : Word) (h : r ≠ i) :
    (s.setReg i v).reg r = s.reg r := by
  simp [State.reg_setReg, h]

/-- Two states with the same registers, by index, have the same register file. -/
theorem State.x_ext {s t : State} (h : ∀ r, s.reg r = t.reg r) : s.x = t.x := by
  refine Vector.ext fun k hk => ?_
  have := h (BitVec.ofNat 5 k)
  simpa [State.reg, Nat.mod_eq_of_lt hk] using this

/-- Every register of the reset state holds 0 (R24). -/
@[simp] theorem State.reset_reg (r : RegIdx) : State.reset.reg r = 0#32 := by
  simp [State.reset, State.reg]

end Sys2Proof.Machine
end

