-- ==== Sys2Proof/Laws/Memory.lean ====
section
/-! SUPPORT. The laws of a memory: a write is read back, it leaves every other index alone, and it keeps the canonical
form; so does a load of a program image. -/

namespace Sys2Proof.Machine

theorem Memory.read_clear (m : Memory) (a b : Nat) :
    (m.clear a).read b = if b = a then 0#32 else m.read b := by
  induction m with
  | nil => simp [Memory.clear, Memory.read]
  | cons p m ih =>
    simp only [Memory.clear, List.filter_cons] at ih ⊢
    by_cases h : p.1 = a <;> by_cases hb : b = p.1 <;> simp_all [Memory.read]

theorem Memory.read_put (m : Memory) (a b : Nat) (v : Word) :
    (m.put a v).read b = if b = a then v else m.read b := by
  induction m with
  | nil => simp [Memory.put, Memory.read]
  | cons p m ih =>
    simp only [Memory.put]
    split
    · simp [Memory.read]
    · split
      · subst_vars; simp only [Memory.read]; split <;> simp_all
      · simp only [Memory.read, ih]; split <;> simp_all [eq_comm]

/-- What a memory reads after a write, at every index and for every list, canonical or not. -/
theorem Memory.read_write (m : Memory) (a b : Nat) (v : Word) :
    (m.write a v).read b = if b = a then v else m.read b := by
  simp only [Memory.write]
  split
  · simp [Memory.read_clear, *]
  · exact m.read_put a b v

/-- Every entry of a written memory is the one written or one that was there. -/
theorem Memory.mem_write {m : Memory} {a : Nat} {v : Word} {p : Nat × Word} (h : p ∈ m.write a v) :
    (p = (a, v) ∧ v ≠ 0#32) ∨ p ∈ m := by
  simp only [Memory.write] at h
  split at h
  · exact .inr (List.mem_of_mem_filter h)
  · rename_i hv
    induction m with
    | nil => simp_all [Memory.put]
    | cons q m ih =>
      simp only [Memory.put] at h
      split at h
      · simp at h ⊢; tauto
      · split at h
        · simp at h ⊢; tauto
        · simp at h ⊢; tauto

theorem Memory.put_pairwise {m : Memory} (a : Nat) {v : Word} (hv : v ≠ 0#32)
    (h : m.Pairwise (fun p q => p.1 < q.1)) : (m.put a v).Pairwise (fun p q => p.1 < q.1) := by
  induction m with
  | nil => simp [Memory.put]
  | cons q m ih =>
    obtain ⟨hq, hm⟩ := List.pairwise_cons.mp h
    simp only [Memory.put]
    split
    · rename_i hlt
      refine List.pairwise_cons.mpr ⟨?_, h⟩
      intro p hp
      rcases List.mem_cons.mp hp with rfl | hp
      · exact hlt
      · exact Nat.lt_trans hlt (hq p hp)
    · split
      · rename_i _ heq
        exact List.pairwise_cons.mpr ⟨fun p hp => heq ▸ hq p hp, hm⟩
      · refine List.pairwise_cons.mpr ⟨?_, ih hm⟩
        intro p hp
        have hw : p ∈ Memory.write m a v := by simpa [Memory.write, hv] using hp
        rcases Memory.mem_write hw with ⟨rfl, -⟩ | hp
        · show q.1 < a; omega
        · exact hq p hp

/-- Every write keeps the canonical form. -/
theorem Memory.write_wf {m : Memory} (a : Nat) (v : Word) (h : m.wf) : (m.write a v).wf := by
  refine ⟨?_, fun p hp => ?_⟩
  · by_cases hv : v = 0#32
    · simpa [Memory.write, hv, Memory.clear] using h.1.filter _
    · simpa [Memory.write, hv] using Memory.put_pairwise a hv h.1
  · rcases Memory.mem_write hp with ⟨rfl, hv⟩ | hp
    · exact hv
    · exact h.2 p hp

theorem Memory.mem_ofWords {k : Nat} {ws : List Word} {p : Nat × Word} (h : p ∈ Memory.ofWords k ws) :
    k ≤ p.1 ∧ p.1 < k + ws.length ∧ p.2 ≠ 0#32 := by
  induction ws generalizing k with
  | nil => simp [Memory.ofWords] at h
  | cons w ws ih =>
    simp only [Memory.ofWords] at h
    split at h
    · have := ih h; simp only [List.length_cons]; exact ⟨by omega, by omega, this.2.2⟩
    · rename_i hw
      rcases List.mem_cons.mp h with rfl | h
      · exact ⟨le_rfl, by simp, hw⟩
      · have := ih h; simp only [List.length_cons]; exact ⟨by omega, by omega, this.2.2⟩

/-- A loaded program image is in canonical form. -/
theorem Memory.ofWords_wf (k : Nat) (ws : List Word) : (Memory.ofWords k ws).wf := by
  refine ⟨?_, fun p hp => (Memory.mem_ofWords hp).2.2⟩
  induction ws generalizing k with
  | nil => simp [Memory.ofWords]
  | cons w ws ih =>
    simp only [Memory.ofWords]
    split
    · exact ih _
    · exact List.pairwise_cons.mpr ⟨fun p hp => (Memory.mem_ofWords hp).1, ih _⟩

/-- The memory of the reset state is canonical, and so is its instruction store. -/
theorem State.reset_memories_wf : State.reset.dmem.wf ∧ State.reset.imem.wf := by decide

/-- A cell reads the value written to it last, and no write reaches another cell (R21, R27). -/
theorem State.cell_setCell (s : State) (a b v : Word) :
    (s.setCell a v).cell b = if b = a then v else s.cell b := by
  simp only [State.cell, State.setCell, Memory.read_write, BitVec.toNat_inj]

@[simp] theorem State.cell_setCell_same (s : State) (a v : Word) : (s.setCell a v).cell a = v := by
  simp [State.cell_setCell]

end Sys2Proof.Machine
end

