-- ==== Sys2Proof/Laws/Datapath.lean ====
section
/-! SUPPORT. What one tick of the datapath can do: the commit, field by field; the three outcomes of `cycle`; and every
meaning as `cycle` under the instruction's bundle and operands. -/

namespace Sys2Proof.Machine

/-! The ALU, one operation a lemma (R64). -/

@[simp] theorem alu_add (a b : Word) (imm : Imm) : alu .add a b imm = a + b := rfl
@[simp] theorem alu_and (a b : Word) (imm : Imm) : alu .and a b imm = a &&& b := rfl
@[simp] theorem alu_shiftImm (a b : Word) (imm : Imm) : alu .shiftImm a b imm = zext32 imm <<< 16 := rfl
@[simp] theorem alu_or (a b : Word) (imm : Imm) : alu .or a b imm = a ||| b := rfl
@[simp] theorem alu_lessThan (a b : Word) (imm : Imm) :
    alu .lessThan a b imm = if a.toNat < b.toNat then 1#32 else 0#32 := by
  simp only [alu, BitVec.ult, Bool.cond_decide]
@[simp] theorem alu_subtract (a b : Word) (imm : Imm) : alu .subtract a b imm = b - a := rfl

@[simp] theorem operandB_reg (rtVal ext : Word) : operandB .reg rtVal ext = rtVal := rfl
@[simp] theorem operandB_imm (rtVal ext : Word) : operandB .imm rtVal ext = ext := rfl

/-- The zero comparison of a subtraction is the comparison of its operands (R66). -/
theorem zeroFlag_subtract (a b : Word) : zeroFlag (b - a) = decide (a = b) := by
  have h : b - a = 0#32 ↔ a = b := by rw [BitVec.sub_eq_iff_eq_add, BitVec.zero_add, eq_comm]
  exact decide_eq_decide.mpr h

/-! The signals of a tick, one a lemma (R62 to R70). -/

@[simp] theorem signals_operands (c : Control) (o : Operands) (s : State) : (signals c o s).operands = o := rfl
@[simp] theorem signals_control (c : Control) (o : Operands) (s : State) : (signals c o s).control = c := rfl
@[simp] theorem signals_rtVal (c : Control) (o : Operands) (s : State) : (signals c o s).rtVal = s.reg o.rt := rfl
@[simp] theorem signals_dest (c : Control) (o : Operands) (s : State) : (signals c o s).dest = destination c o := rfl
theorem signals_aluResult (c : Control) (o : Operands) (s : State) : (signals c o s).aluResult =
    alu c.aluOp (s.reg o.rs) (operandB c.aluSrc (s.reg o.rt) (extendImm c.aluOp o.imm)) o.imm := rfl
theorem signals_memData (c : Control) (o : Operands) (s : State) :
    (signals c o s).memData = memStageData c (signals c o s).aluResult s := rfl
theorem signals_wb (c : Control) (o : Operands) (s : State) :
    (signals c o s).wb = writeBack c (signals c o s).aluResult (signals c o s).memData := rfl
theorem signals_taken (c : Control) (o : Operands) (s : State) :
    (signals c o s).taken = (c.branch && zeroFlag (signals c o s).aluResult) := rfl
theorem signals_nextPc (c : Control) (o : Operands) (s : State) :
    (signals c o s).nextPc = nextPcValue s.cfg.pcw s.pc (signals c o s).taken o.imm := rfl

/-! The commit, field by field (R71). -/

@[simp] theorem commitReg_pc (g : Signals) (s : State) : (commitReg g s).pc = s.pc := by
  unfold commitReg; split <;> [split; skip] <;> rfl
@[simp] theorem commitReg_dmem (g : Signals) (s : State) : (commitReg g s).dmem = s.dmem := by
  unfold commitReg; split <;> [split; skip] <;> rfl
@[simp] theorem commitReg_imem (g : Signals) (s : State) : (commitReg g s).imem = s.imem := by
  unfold commitReg; split <;> [split; skip] <;> rfl
@[simp] theorem commitReg_faulted (g : Signals) (s : State) : (commitReg g s).faulted = s.faulted := by
  unfold commitReg; split <;> [split; skip] <;> rfl
@[simp] theorem commitReg_cfg (g : Signals) (s : State) : (commitReg g s).cfg = s.cfg := by
  unfold commitReg; split <;> [split; skip] <;> rfl

@[simp] theorem commitMem_x (g : Signals) (s : State) : (commitMem g s).x = s.x := by
  unfold commitMem; split <;> rfl
@[simp] theorem commitMem_reg (g : Signals) (s : State) (r : RegIdx) : (commitMem g s).reg r = s.reg r := by
  unfold commitMem; split <;> rfl
@[simp] theorem commitMem_imem (g : Signals) (s : State) : (commitMem g s).imem = s.imem := by
  unfold commitMem; split <;> rfl
@[simp] theorem commitMem_faulted (g : Signals) (s : State) : (commitMem g s).faulted = s.faulted := by
  unfold commitMem; split <;> rfl
@[simp] theorem commitMem_cfg (g : Signals) (s : State) : (commitMem g s).cfg = s.cfg := by
  unfold commitMem; split <;> rfl

@[simp] theorem commit_pc (g : Signals) (s : State) : (commit g s).pc = g.nextPc := rfl
@[simp] theorem commit_imem (g : Signals) (s : State) : (commit g s).imem = s.imem := by simp [commit]
@[simp] theorem commit_faulted (g : Signals) (s : State) : (commit g s).faulted = s.faulted := by simp [commit]
@[simp] theorem commit_cfg (g : Signals) (s : State) : (commit g s).cfg = s.cfg := by simp [commit]

/-- The register file after a commit (R69). -/
theorem commit_reg (g : Signals) (s : State) (r : RegIdx) :
    (commit g s).reg r = if g.control.regWrite = true ∧ r = g.dest then g.wb.getD (s.reg r) else s.reg r := by
  simp only [commit, State.setPc_reg, commitMem_reg, commitReg]
  cases g.control.regWrite <;> cases g.wb <;> simp [State.reg_setReg]

/-- The data memory after a commit (R67). -/
theorem commit_dmem (g : Signals) (s : State) :
    (commit g s).dmem = if g.control.memWrite = true then s.dmem.write g.aluResult.toNat g.rtVal else s.dmem := by
  simp only [commit, State.setPc_dmem, commitMem]
  split <;> simp

/-- One cell of the data memory after a commit (R67). -/
theorem commit_cell (g : Signals) (s : State) (a : Word) :
    (commit g s).cell a = if g.control.memWrite = true ∧ a = g.aluResult then g.rtVal else s.cell a := by
  simp only [State.cell, commit_dmem]
  by_cases h : g.control.memWrite = true <;> simp [h, Memory.read_write, BitVec.toNat_inj]

/-- The three outcomes of a tick: the commit where nothing is raised, the fault with this `pc` and address where it is,
and never a refusal. -/
theorem cycle_cases (c : Control) (o : Operands) (s : State) :
    (raises (signals c o s) s = false ∧ cycle c o s = .next (commit (signals c o s) s)) ∨
    (raises (signals c o s) s = true ∧
      cycle c o s = .fault (.dataAddressOutOfRange s.pc (signals c o s).aluResult)) := by
  unfold cycle raiseOutOfRange
  cases h : raises (signals c o s) s <;> simp [h]

theorem cycle_next {c : Control} {o : Operands} {s : State} (h : raises (signals c o s) s = false) :
    cycle c o s = .next (commit (signals c o s) s) := by
  simp [cycle, h]

/-- If a tick answers a next state, it is the commit and nothing was raised. -/
theorem cycle_next_inv {c : Control} {o : Operands} {s t : State} (h : cycle c o s = .next t) :
    raises (signals c o s) s = false ∧ t = commit (signals c o s) s := by
  rcases cycle_cases c o s with ⟨hr, hc⟩ | ⟨-, hc⟩
  · exact ⟨hr, by simpa [hc, eq_comm] using h⟩
  · simp [hc] at h

end Sys2Proof.Machine

namespace Sys2Proof

/-- The control bundle of an instruction (R60). -/
def Instr.control : Instr → Machine.Control
  | .add _ _ _ _ => Machine.controlAdd
  | .and _ _ _ _ => Machine.controlAnd
  | .slt _ _ _ _ => Machine.controlSlt
  | .addi _ _ _ => Machine.controlAddi
  | .lui _ _ _ => Machine.controlLui
  | .ori _ _ _ => Machine.controlOri
  | .lw _ _ _ => Machine.controlLw
  | .sw _ _ _ => Machine.controlSw
  | .beq _ _ _ => Machine.controlBeq
  | .unsupported _ => Machine.controlZero

/-- The fields of an instruction that the datapath reads. -/
def Instr.operands : Instr → Machine.Operands
  | .add rs rt rd sh => Machine.operandsR 0x20#6 rs rt rd sh
  | .and rs rt rd sh => Machine.operandsR 0x24#6 rs rt rd sh
  | .slt rs rt rd sh => Machine.operandsR 0x2a#6 rs rt rd sh
  | .addi rs rt imm => Machine.operandsI rs rt imm
  | .lui rs rt imm => Machine.operandsI rs rt imm
  | .ori rs rt imm => Machine.operandsI rs rt imm
  | .lw rs rt imm => Machine.operandsI rs rt imm
  | .sw rs rt imm => Machine.operandsI rs rt imm
  | .beq rs rt imm => Machine.operandsI rs rt imm
  | .unsupported w => Machine.operandsOf w

end Sys2Proof

namespace Sys2Proof.Machine

/-- Every meaning is one tick of the datapath. -/
theorem exec_eq_cycle (i : Instr) (s : State) : exec i s = cycle i.control i.operands s := by
  cases i <;> rfl

/-- What `exec` can do: a commit of the instruction's signals, or the fault; never a refusal. -/
theorem exec_next_inv {i : Instr} {s t : State} (h : exec i s = .next t) :
    raises (signals i.control i.operands s) s = false ∧ t = commit (signals i.control i.operands s) s :=
  cycle_next_inv (exec_eq_cycle i s ▸ h)

end Sys2Proof.Machine
end

