-- ==== Sys2Proof/Laws/Decode.lean ====
section
/-! SUPPORT. The bit-level facts about words: the fields of an encoded word, the words of given fields, and the masks of
the opcode rows as statements about fields. -/

namespace Sys2Proof

/-- One bit of the string `rd, sh, func`. -/
theorem getLsbD_rd_sh_func (rd sh : BitVec 5) (func : Code6) (i : Nat) :
    (rd ++ sh ++ func : BitVec 16).getLsbD i =
      if i < 6 then func.getLsbD i else if i < 11 then sh.getLsbD (i - 6) else rd.getLsbD (i - 11) := by
  refine (BitVec.getLsbD_append (x := rd ++ sh) (y := func)).trans ?_
  rw [BitVec.getLsbD_append]
  by_cases h6 : i < 6
  · simp [h6]
  · by_cases h11 : i < 11
    · simp [h6, h11, show i - 6 < 5 by omega]
    · simp [h6, h11, show ¬ i - 6 < 5 by omega, show i - 6 - 5 = i - 11 by omega]

/-- The eight fields of an R-type word (R41, R54). -/
theorem fieldsOf_encodeR (func : Code6) (rs rt rd : RegIdx) (sh : BitVec 5) :
    fieldsOf (encodeR func rs rt rd sh) =
      { opcode := 0#6, rs := rs, rt := rt, rd := rd, sh := sh, func := func, imm := rd ++ sh ++ func,
        addr := (encodeR func rs rt rd sh).extractLsb' 0 26 } := by
  simp only [fieldsOf, Fields.mk.injEq, and_true]
  refine ⟨?_, ?_, ?_, ?_, ?_, ?_, ?_⟩ <;> apply BitVec.eq_of_getLsbD_eq <;> intro i hi
  case refine_7 => rw [getLsbD_rd_sh_func]; interval_cases i <;> simp [encodeR]
  all_goals interval_cases i <;> simp [encodeR]

/-- The eight fields of an I-type word (R41, R54). -/
theorem fieldsOf_encodeI (opcode : Code6) (rs rt : RegIdx) (imm : Imm) :
    fieldsOf (encodeI opcode rs rt imm) =
      { opcode := opcode, rs := rs, rt := rt, rd := imm.extractLsb' 11 5, sh := imm.extractLsb' 6 5,
        func := imm.extractLsb' 0 6, imm := imm, addr := (encodeI opcode rs rt imm).extractLsb' 0 26 } := by
  simp only [fieldsOf, Fields.mk.injEq, and_true]
  refine ⟨?_, ?_, ?_, ?_, ?_, ?_, ?_⟩ <;> apply BitVec.eq_of_getLsbD_eq <;> intro i hi <;>
    interval_cases i <;> simp [encodeI]

/-- A word whose opcode is 0 is the R-type word of its fields. -/
theorem encodeR_fieldsOf {w : Word} (h : (fieldsOf w).opcode = 0#6) :
    encodeR (fieldsOf w).func (fieldsOf w).rs (fieldsOf w).rt (fieldsOf w).rd (fieldsOf w).sh = w := by
  have top := fun i => congrArg (fun v => v.getLsbD i) h
  simp only [fieldsOf] at top ⊢
  apply BitVec.eq_of_getLsbD_eq
  intro i hi
  by_cases h26 : i < 26
  · interval_cases i <;> simp [encodeR]
  · have := top (i - 26)
    interval_cases i <;> simp_all [encodeR]

/-- Every word is the I-type word of its fields. -/
theorem encodeI_fieldsOf (w : Word) :
    encodeI (fieldsOf w).opcode (fieldsOf w).rs (fieldsOf w).rt (fieldsOf w).imm = w := by
  simp only [fieldsOf]
  apply BitVec.eq_of_getLsbD_eq
  intro i hi
  interval_cases i <;> simp [encodeI]

/-- The immediate field of a word is its `rd`, `sh` and `func` fields side by side (R41). -/
theorem fieldsOf_imm (w : Word) : (fieldsOf w).imm = (fieldsOf w).rd ++ (fieldsOf w).sh ++ (fieldsOf w).func := by
  simp only [fieldsOf]
  apply BitVec.eq_of_getLsbD_eq
  intro i hi
  rw [getLsbD_rd_sh_func]
  interval_cases i <;> simp

/-- The `rd` field of a word is bits 15 to 11 of its immediate field (R41). -/
theorem fieldsOf_rd (w : Word) : (fieldsOf w).rd = (fieldsOf w).imm.extractLsb' 11 5 := by
  simp only [fieldsOf]
  apply BitVec.eq_of_getLsbD_eq
  intro i hi
  interval_cases i <;> simp

/-- The mask of an I-type row selects by the opcode alone (R46, R47). -/
theorem mask_opcode_iff (w : Word) (k : Code6) :
    w &&& 0xFC000000#32 = k.setWidth 32 <<< 26 ↔ (fieldsOf w).opcode = k := by
  simp only [fieldsOf]
  constructor
  · intro h
    apply BitVec.eq_of_getLsbD_eq
    intro i hi
    have := congrArg (fun v => v.getLsbD (26 + i)) h
    interval_cases i <;> simpa using this
  · rintro rfl
    apply BitVec.eq_of_getLsbD_eq
    intro i hi
    interval_cases i <;> simp

/-- The mask of an R-type row selects by opcode 0 and the function code (R46, R47). -/
theorem mask_func_iff (w : Word) (k : Code6) :
    w &&& 0xFC00003F#32 = k.setWidth 32 ↔ (fieldsOf w).opcode = 0#6 ∧ (fieldsOf w).func = k := by
  simp only [fieldsOf]
  constructor
  · intro h
    have bits := fun i => congrArg (fun v => v.getLsbD i) h
    constructor <;> apply BitVec.eq_of_getLsbD_eq <;> intro i hi
    · have := bits (26 + i)
      interval_cases i <;> simpa using this
    · have := bits i
      interval_cases i <;> simpa using this
  · rintro ⟨h, rfl⟩
    have top := fun i => congrArg (fun v => v.getLsbD i) h
    apply BitVec.eq_of_getLsbD_eq
    intro i hi
    by_cases h26 : i < 26
    · interval_cases i <;> simp
    · have := top (i - 26)
      interval_cases i <;> simpa using this

theorem encodeR_mask (func : Code6) (rs rt rd : RegIdx) (sh : BitVec 5) :
    encodeR func rs rt rd sh &&& 0xFC00003F#32 = func.setWidth 32 :=
  (mask_func_iff _ _).mpr (by simp [fieldsOf_encodeR])

theorem encodeI_mask (opcode : Code6) (rs rt : RegIdx) (imm : Imm) :
    encodeI opcode rs rt imm &&& 0xFC000000#32 = opcode.setWidth 32 <<< 26 :=
  (mask_opcode_iff _ _).mpr (by simp [fieldsOf_encodeI])

/-- Each row of R46 fits a word exactly when the word's fields are the row's. -/
theorem supportedWord_iff (w : Word) : supportedWord w = true ↔
    ((fieldsOf w).opcode = 0x00#6 ∧ ((fieldsOf w).func = 0x20#6 ∨ (fieldsOf w).func = 0x24#6 ∨
      (fieldsOf w).func = 0x2a#6)) ∨
    (fieldsOf w).opcode = 0x08#6 ∨ (fieldsOf w).opcode = 0x0f#6 ∨ (fieldsOf w).opcode = 0x0d#6 ∨
    (fieldsOf w).opcode = 0x23#6 ∨ (fieldsOf w).opcode = 0x2b#6 ∨ (fieldsOf w).opcode = 0x04#6 := by
  have a1 : w &&& 0xFC00003F#32 = 0x00000020#32 ↔ _ := mask_func_iff w 0x20#6
  have a2 : w &&& 0xFC00003F#32 = 0x00000024#32 ↔ _ := mask_func_iff w 0x24#6
  have a3 : w &&& 0xFC00003F#32 = 0x0000002A#32 ↔ _ := mask_func_iff w 0x2a#6
  have b1 : w &&& 0xFC000000#32 = 0x20000000#32 ↔ _ := mask_opcode_iff w 0x08#6
  have b2 : w &&& 0xFC000000#32 = 0x3C000000#32 ↔ _ := mask_opcode_iff w 0x0f#6
  have b3 : w &&& 0xFC000000#32 = 0x34000000#32 ↔ _ := mask_opcode_iff w 0x0d#6
  have b4 : w &&& 0xFC000000#32 = 0x8C000000#32 ↔ _ := mask_opcode_iff w 0x23#6
  have b5 : w &&& 0xFC000000#32 = 0xAC000000#32 ↔ _ := mask_opcode_iff w 0x2b#6
  have b6 : w &&& 0xFC000000#32 = 0x10000000#32 ↔ _ := mask_opcode_iff w 0x04#6
  simp only [supportedWord, opcodeRows, OpcodeRow.fits, List.any_cons, List.any_nil, Bool.or_eq_true, Bool.false_eq_true,
    or_false, beq_iff_eq, and_or_left, or_assoc, a1, a2, a3, b1, b2, b3, b4, b5, b6]

/-- What the decoder can answer: one of the nine instructions, with the word's own fields, under that row's opcode and
function code; or the word itself, unsupported, where no row fits. -/
theorem decode_cases (w : Word) :
    ((fieldsOf w).opcode = 0x00#6 ∧ (fieldsOf w).func = 0x20#6 ∧
      decode w = .add (fieldsOf w).rs (fieldsOf w).rt (fieldsOf w).rd (fieldsOf w).sh) ∨
    ((fieldsOf w).opcode = 0x00#6 ∧ (fieldsOf w).func = 0x24#6 ∧
      decode w = .and (fieldsOf w).rs (fieldsOf w).rt (fieldsOf w).rd (fieldsOf w).sh) ∨
    ((fieldsOf w).opcode = 0x00#6 ∧ (fieldsOf w).func = 0x2a#6 ∧
      decode w = .slt (fieldsOf w).rs (fieldsOf w).rt (fieldsOf w).rd (fieldsOf w).sh) ∨
    ((fieldsOf w).opcode = 0x08#6 ∧ decode w = .addi (fieldsOf w).rs (fieldsOf w).rt (fieldsOf w).imm) ∨
    ((fieldsOf w).opcode = 0x0f#6 ∧ decode w = .lui (fieldsOf w).rs (fieldsOf w).rt (fieldsOf w).imm) ∨
    ((fieldsOf w).opcode = 0x0d#6 ∧ decode w = .ori (fieldsOf w).rs (fieldsOf w).rt (fieldsOf w).imm) ∨
    ((fieldsOf w).opcode = 0x23#6 ∧ decode w = .lw (fieldsOf w).rs (fieldsOf w).rt (fieldsOf w).imm) ∨
    ((fieldsOf w).opcode = 0x2b#6 ∧ decode w = .sw (fieldsOf w).rs (fieldsOf w).rt (fieldsOf w).imm) ∨
    ((fieldsOf w).opcode = 0x04#6 ∧ decode w = .beq (fieldsOf w).rs (fieldsOf w).rt (fieldsOf w).imm) ∨
    (supportedWord w = false ∧ decode w = .unsupported w) := by
  rw [← Bool.not_eq_true, supportedWord_iff]
  unfold decode decodeRType
  simp only []
  split_ifs <;> simp_all

end Sys2Proof
end

