-- ==== Sys2Proof/Laws/PerInstr.lean ====
section
/-! SUPPORT. Statements made per instruction. The family EncodedRow: the word of a well-formed instruction fits the
instruction's own row of spec/30_encoding.md R46 and no other row; the word of an unsupported one fits none. -/

namespace Sys2Proof

/-- The mnemonics of the rows of R46 that fit a word, in the table's order. -/
def fittingRows (w : Word) : List String := (opcodeRows.filter (·.fits w)).map (·.mnemonic)

/-- The row an instruction belongs to; the unsupported word has none. -/
def Instr.rowNames : Instr → List String
  | .add _ _ _ _ => ["ADD"]
  | .and _ _ _ _ => ["AND"]
  | .slt _ _ _ _ => ["SLT"]
  | .addi _ _ _ => ["ADDI"]
  | .lui _ _ _ => ["LUI"]
  | .ori _ _ _ => ["ORI"]
  | .lw _ _ _ => ["LW"]
  | .sw _ _ _ => ["SW"]
  | .beq _ _ _ => ["BEQ"]
  | .unsupported _ => []

/-- The rows that fit an I-type word depend on the opcode alone. -/
theorem fittingRows_encodeI (opcode : Code6) (rs rt : RegIdx) (imm : Imm) (h : opcode ≠ 0#6) :
    fittingRows (encodeI opcode rs rt imm) = fittingRows (opcode.setWidth 32 <<< 26) := by
  have hr : ∀ (imm' : Imm) (k : Code6), (encodeI opcode rs rt imm' &&& 0xFC00003F#32 == k.setWidth 32) = false := by
    intro imm' k
    simp [mask_func_iff, fieldsOf_encodeI, h]
  have hz : encodeI opcode 0#5 0#5 0#16 = opcode.setWidth 32 <<< 26 := by simp [encodeI]
  have hr0 : ∀ k : Code6, ((opcode.setWidth 32 <<< 26) &&& 0xFC00003F#32 == k.setWidth 32) = false := by
    intro k
    rw [← hz]
    simp [mask_func_iff, fieldsOf_encodeI, h]
  have hi0 : (opcode.setWidth 32 <<< 26) &&& 0xFC000000#32 = opcode.setWidth 32 <<< 26 := by
    rw [← hz, encodeI_mask, hz]
  have r1 := hr imm 0x20#6; have r2 := hr imm 0x24#6; have r3 := hr imm 0x2a#6
  have z1 := hr0 0x20#6; have z2 := hr0 0x24#6; have z3 := hr0 0x2a#6
  simp only [BitVec.reduceSetWidth] at r1 r2 r3 z1 z2 z3
  simp only [fittingRows, opcodeRows, OpcodeRow.fits, List.filter_cons, List.filter_nil, encodeI_mask, hi0, r1, r2, r3,
    z1, z2, z3]

/-- The rows that fit an R-type word depend on the function code alone. -/
theorem fittingRows_encodeR (func : Code6) (rs rt rd : RegIdx) (sh : BitVec 5) :
    fittingRows (encodeR func rs rt rd sh) = fittingRows (func.setWidth 32) := by
  have hz : encodeR func 0#5 0#5 0#5 0#5 = func.setWidth 32 := by simp [encodeR]
  have hi : ∀ rs rt rd sh, encodeR func rs rt rd sh &&& 0xFC000000#32 = (0#6).setWidth 32 <<< 26 := fun _ _ _ _ =>
    (mask_opcode_iff _ _).mpr (by simp [fieldsOf_encodeR])
  rw [← hz]
  simp only [fittingRows, opcodeRows, OpcodeRow.fits, List.filter_cons, List.filter_nil, encodeR_mask, hi]

/-- The word of a well-formed instruction fits its own row of R46 and no other. -/
def Laws.EncodedRow.Statement (i : Instr) : Prop := i.wf = true → fittingRows (encode i) = i.rowNames

theorem Laws.EncodedRow.add (rs rt rd : RegIdx) (sh : BitVec 5) : Laws.EncodedRow.Statement (.add rs rt rd sh) :=
  fun _ => (fittingRows_encodeR _ _ _ _ _).trans (show fittingRows _ = ["ADD"] by decide)
theorem Laws.EncodedRow.and (rs rt rd : RegIdx) (sh : BitVec 5) : Laws.EncodedRow.Statement (.and rs rt rd sh) :=
  fun _ => (fittingRows_encodeR _ _ _ _ _).trans (show fittingRows _ = ["AND"] by decide)
theorem Laws.EncodedRow.slt (rs rt rd : RegIdx) (sh : BitVec 5) : Laws.EncodedRow.Statement (.slt rs rt rd sh) :=
  fun _ => (fittingRows_encodeR _ _ _ _ _).trans (show fittingRows _ = ["SLT"] by decide)
theorem Laws.EncodedRow.addi (rs rt : RegIdx) (imm : Imm) : Laws.EncodedRow.Statement (.addi rs rt imm) :=
  fun _ => (fittingRows_encodeI _ _ _ _ (by decide)).trans (show fittingRows _ = ["ADDI"] by decide)
theorem Laws.EncodedRow.lui (rs rt : RegIdx) (imm : Imm) : Laws.EncodedRow.Statement (.lui rs rt imm) :=
  fun _ => (fittingRows_encodeI _ _ _ _ (by decide)).trans (show fittingRows _ = ["LUI"] by decide)
theorem Laws.EncodedRow.ori (rs rt : RegIdx) (imm : Imm) : Laws.EncodedRow.Statement (.ori rs rt imm) :=
  fun _ => (fittingRows_encodeI _ _ _ _ (by decide)).trans (show fittingRows _ = ["ORI"] by decide)
theorem Laws.EncodedRow.lw (rs rt : RegIdx) (imm : Imm) : Laws.EncodedRow.Statement (.lw rs rt imm) :=
  fun _ => (fittingRows_encodeI _ _ _ _ (by decide)).trans (show fittingRows _ = ["LW"] by decide)
theorem Laws.EncodedRow.sw (rs rt : RegIdx) (imm : Imm) : Laws.EncodedRow.Statement (.sw rs rt imm) :=
  fun _ => (fittingRows_encodeI _ _ _ _ (by decide)).trans (show fittingRows _ = ["SW"] by decide)
theorem Laws.EncodedRow.beq (rs rt : RegIdx) (imm : Imm) : Laws.EncodedRow.Statement (.beq rs rt imm) :=
  fun _ => (fittingRows_encodeI _ _ _ _ (by decide)).trans (show fittingRows _ = ["BEQ"] by decide)
theorem Laws.EncodedRow.unsupported (w : Word) : Laws.EncodedRow.Statement (.unsupported w) := by
  intro h
  have h : ∀ r ∈ opcodeRows, r.fits w = false := by simpa [Instr.wf, supportedWord] using h
  simpa [fittingRows, encode, Instr.rowNames] using h

end Sys2Proof
end

