-- ==== Sys2Proof/Laws/Run.lean ====
section
/-! SUPPORT. What `step` and a run can do, and the frame of a commit. -/

namespace Sys2Proof.Machine

/-- If a tick answers a next state, the machine was not faulted and the state is that of the decoded instruction. -/
theorem step_next_inv {s t : State} (h : step s = .next t) : s.faulted = none ∧ exec (decode s.fetch) s = .next t := by
  unfold step at h
  split at h
  · cases h
  · exact ⟨‹_›, h⟩

/-- The first tick of a run that completes. -/
theorem runTicks_succ_inv {n : Nat} {s u : State} (h : runTicks (n + 1) s = .next u) :
    ∃ t, step s = .next t ∧ runTicks n t = .next u := by
  simp only [runTicks] at h
  split at h
  · exact ⟨_, ‹_›, h⟩
  · cases h
  · cases h

/-- A run is the host's own run of the machine. -/
theorem runTicks_eq_core_run (n : Nat) (s : State) : runTicks n s = Host.Core.run core n s := by
  induction n generalizing s with
  | zero => rfl
  | succ n ih =>
    simp only [runTicks, Host.Core.run]
    cases h : step s with
    | next t =>
      have e : core.step s = .next t := h
      rw [e]
      exact ih t
    | fault f =>
      have e : core.step s = .fault f := h
      rw [e]
      rfl
    | refused r =>
      have e : core.step s = .refused r := h
      rw [e]
      rfl

/-- A commit leaves everything unchanged but the destination register, if it writes one, and the cell stored to, if it
stores. -/
theorem commit_unchangedBut (g : Signals) (s : State) {regs : RegIdx → Prop} {cells : Word → Prop}
    (hr : g.control.regWrite = true → regs g.dest) (hc : g.control.memWrite = true → cells g.aluResult) :
    UnchangedBut regs cells s (commit g s) where
  reg r h := by
    rw [commit_reg, if_neg]
    rintro ⟨hw, rfl⟩
    exact h (hr hw)
  cell a h := by
    rw [commit_cell, if_neg]
    rintro ⟨hw, rfl⟩
    exact h (hc hw)
  imem := commit_imem g s
  faulted := commit_faulted g s
  cfg := commit_cfg g s

/-- A state is determined by its registers, by index, and its other fields. -/
theorem State.ext_reg {s t : State} (hx : ∀ r, s.reg r = t.reg r) (hpc : s.pc = t.pc) (hd : s.dmem = t.dmem)
    (hi : s.imem = t.imem) (hf : s.faulted = t.faulted) (hc : s.cfg = t.cfg) : s = t := by
  have := State.x_ext hx
  cases s
  cases t
  simp_all

end Sys2Proof.Machine
end

