-- ==== Sys2Proof/Tests/Slice0.lean ====
section
/-! SUPPORT. Tests by hand: words written out from the encoding of spec/30_encoding.md, single ticks from the tables of
spec/95_test_vectors.md (part 2), the ill-formed term, and a witness for the hypotheses of each statement that has some. -/

namespace Sys2Proof.Machine

/-! ## Well-formedness and decoding -/

/-- The one check of `Instr.wf`: a word of a row is no unsupported word, even one bit of `sh` away from the table's own. -/
theorem test_wf_refuses_supported_word :
    (Instr.unsupported 0x00221FE0#32).wf = false ∧ (Instr.unsupported 0x1000FFFF#32).wf = false ∧
    (Instr.unsupported 0x00000000#32).wf = true ∧ (Instr.unsupported 0xA8020000#32).wf = true := by decide

/-- R46, R42: opcode, rs, rt, rd, sh, func, bit by bit. -/
theorem test_decode_rtype :
    decode 0b00000000001000100001100000100000#32 = .add 1 2 3 0 ∧
    decode 0b00000000010000110010011111100100#32 = .and 2 3 4 31 ∧
    decode 0b00000011111000000000100000101010#32 = .slt 31 0 1 0 := by decide

/-- R46, R42: opcode, rs, rt, imm, bit by bit. -/
theorem test_decode_itype :
    decode 0b00100000001000011111111111111111#32 = .addi 1 1 0xFFFF#16 ∧
    decode 0b00111100101000100000000000000001#32 = .lui 5 2 1#16 ∧
    decode 0b00110100001000011010101111001101#32 = .ori 1 1 0xABCD#16 ∧
    decode 0b10001100001000101111111111111100#32 = .lw 1 2 0xFFFC#16 ∧
    decode 0b10101100001000100111111111111111#32 = .sw 1 2 0x7FFF#16 ∧
    decode 0b00010000001000000000000000000011#32 = .beq 1 0 3#16 := by decide

/-- R48: one bit away from a row is no row. -/
theorem test_decode_unsupported :
    decode 0b00000000001000100001100000100010#32 = .unsupported 0x00221822#32 ∧
    decode 0b00010100001000000000000000000011#32 = .unsupported 0x14200003#32 ∧
    decode 0b10101000000000100000000000000000#32 = .unsupported 0xA8020000#32 := by decide

/-- R54's own examples of the encoder. -/
theorem test_encode_examples :
    encode (.add 1 2 3 0) = 0x00221820#32 ∧ encode (.beq 0 0 0xFFFF#16) = 0x1000FFFF#32 := by decide

/-- The host's numbering of a row's bits is the word's own; more than 32 bits is no instruction. -/
theorem test_decodeTableWord :
    decodeTableWord 32 0x00221820 = some (.add 1 2 3 0) ∧ decodeTableWord 32 0 = some (.unsupported 0) ∧
    decodeTableWord 32 (2 ^ 32) = none := by decide

/-- R65, R75: the selectors that have no meaning are refused, and every other one is its operation's. -/
theorem test_selectors :
    AluOp.ofSelector 6#3 = none ∧ AluOp.ofSelector 7#3 = none ∧ AluSrc.ofSelector 2#2 = none ∧
    AluSrc.ofSelector 3#2 = none ∧ AluOp.ofSelector AluOp.subtract.selector = some .subtract ∧
    AluSrc.ofSelector AluSrc.imm.selector = some .imm := by decide

/-- R44 and R8: the two extensions on both sides of bit 15 (ExtensionsAndTruncation: each clause at its boundary). -/
theorem test_extensions :
    sext32 0x7FFF#16 = 0x00007FFF#32 ∧ sext32 0x8000#16 = 0xFFFF8000#32 ∧ sext32 0xFFFF#16 = 0xFFFFFFFF#32 ∧
    zext32 0x8000#16 = 0x00008000#32 ∧ truncPcw 10 0x400#32 = 0#32 ∧ truncPcw 10 0x3FF#32 = 0x3FF#32 ∧
    truncPcw 32 0xFFFFFFFF#32 = 0xFFFFFFFF#32 := by decide

/-- 95_test_vectors.md, table ALU: the operand order of the subtraction, and its zero comparison. -/
theorem test_alu_subtract :
    alu .subtract 5#32 0#32 0#16 = 0xFFFFFFFB#32 ∧ alu .subtract 1#32 3#32 0#16 = 2#32 ∧
    zeroFlag (alu .subtract 0xFFFFFFFF#32 0xFFFFFFFF#32 0#16) = true := by decide

/-- R106, R22: word `k` of the image is entry `k`, a zero word among them; entries beyond it are 0. -/
theorem test_load :
    (State.resetWith Config.default [0x20010004#32, 0#32, 0x00221820#32]).imWord 2 = 0x00221820#32 ∧
    (State.resetWith Config.default [0x20010004#32, 0#32, 0x00221820#32]).imWord 1 = 0#32 ∧
    (State.resetWith Config.default [0x20010004#32, 0#32, 0x00221820#32]).imWord 3 = 0#32 := by decide

/-! ## Single ticks -/

/-- The reset state with a program counter, some registers and cells set, and the parameters given. -/
def st (pc : Word) (regs cells : List (Nat × Word)) (dmemWords : Nat := 2 ^ 32) (pcw : Nat := 32) : State :=
  cells.foldl (fun s p => s.setCell (BitVec.ofNat 32 p.1) p.2)
    (regs.foldl (fun s p => s.setReg (BitVec.ofNat 5 p.1) p.2)
      { State.reset with pc := pc, cfg := { pcw := pcw, dmemWords := dmemWords } })

/-- One tick at `s` with the word `w` loaded at its program counter: the values then of a register, of a cell and of
`pc`; nothing if the tick does not complete. -/
def after (s : State) (w : Nat) (r : RegIdx) (a : Word) : Option (Word × Word × Word) :=
  match step (s.withFetchWord 32 w) with
  | .next t => some (t.reg r, t.cell a, t.pc)
  | _ => none

/-- The fault of the tick at `s` with the word `w` loaded at its program counter, if it faults. -/
def faultAfter (s : State) (w : Nat) : Option Fault :=
  match step (s.withFetchWord 32 w) with
  | .fault f => some f
  | _ => none

/-- 95_test_vectors.md: ADD wraps; the destination is also both sources. -/
theorem test_add_wraps :
    after (st 0 [(1, 0xFFFFFFFF#32), (2, 1#32), (3, 0x55#32)] []) 0x00221820 3 0 = some (0#32, 0#32, 1#32) ∧
    after (st 0 [(1, 0x40000001#32)] []) 0x00210820 1 0 = some (0x80000002#32, 0#32, 1#32) := by decide

/-- 95_test_vectors.md: ADD writes register 0; `pc` wraps at the top of a store of 2^10 entries. -/
theorem test_add_register_zero_and_top :
    after (st 0 [(1, 3#32), (2, 4#32)] []) 0x00220020 0 0 = some (7#32, 0#32, 1#32) ∧
    after (st 0x3FF [(1, 1#32), (2, 1#32)] [] (pcw := 10)) 0x00221820 3 0 = some (2#32, 0#32, 0#32) := by decide

/-- 95_test_vectors.md: AND. -/
theorem test_and :
    after (st 0 [(2, 0xF0F0F0F0#32), (3, 0x0FF00FF0#32)] []) 0x00432024 4 0 = some (0x00F000F0#32, 0#32, 1#32) := by
  decide

/-- 95_test_vectors.md: SLT is unsigned both ways. -/
theorem test_slt_unsigned :
    after (st 0 [(2, 0#32), (3, 0xFFFFFFFF#32)] []) 0x0043282A 5 0 = some (1#32, 0#32, 1#32) ∧
    after (st 0 [(2, 0xFFFFFFFF#32), (3, 0#32), (5, 9#32)] []) 0x0043282A 5 0 = some (0#32, 0#32, 1#32) := by decide

/-- 95_test_vectors.md: ADDI wraps below zero, and its discarded read outside 16 cells raises nothing. -/
theorem test_addi_negative :
    after (st 4 [(1, 0#32)] []) 0x2021FFFF 1 0 = some (0xFFFFFFFF#32, 0#32, 5#32) ∧
    after (st 0 [] [] (dmemWords := 16)) 0x2001FFFF 1 0 = some (0xFFFFFFFF#32, 0#32, 1#32) := by decide

/-- 95_test_vectors.md: ORI zero-extends. -/
theorem test_ori_zero_extends :
    after (st 0 [(1, 0#32)] []) 0x34228000 2 0 = some (0x00008000#32, 0#32, 1#32) ∧
    after (st 0 [(1, 0x12340000#32)] []) 0x3422FFFF 2 0 = some (0x1234FFFF#32, 0#32, 1#32) := by decide

/-- 95_test_vectors.md: LUI loses the old value and ignores `rs`. -/
theorem test_lui :
    after (st 0 [(1, 0xFFFFFFFF#32)] []) 0x3C011234 1 0 = some (0x12340000#32, 0#32, 1#32) ∧
    after (st 0 [(5, 0xFFFFFFFF#32)] []) 0x3CA20001 2 0 = some (0x00010000#32, 0#32, 1#32) := by decide

/-- 95_test_vectors.md: LW with base and destination the same, and with an address that wraps to 0. -/
theorem test_lw :
    after (st 0 [(1, 9#32)] [(9, 0x55AA55AA#32)]) 0x8C210000 1 9 = some (0x55AA55AA#32, 0x55AA55AA#32, 1#32) ∧
    after (st 0 [(1, 0xFFFFFFFF#32)] [(0, 0x11111111#32)]) 0x8C220001 2 0 =
      some (0x11111111#32, 0x11111111#32, 1#32) := by decide

/-- 95_test_vectors.md: LW of the last of 1024 cells completes, of the next address faults. -/
theorem test_lw_range :
    after (st 6 [] [(1023, 5#32)] (dmemWords := 1024)) 0x8C0203FF 2 0 = some (5#32, 0#32, 7#32) ∧
    faultAfter (st 6 [] [] (dmemWords := 1024)) 0x8C020400 = some (.dataAddressOutOfRange 6#32 0x400#32) := by decide

/-- 95_test_vectors.md: SW overwrites, and stores the base register's own value. -/
theorem test_sw :
    after (st 0 [(2, 5#32)] [(8, 0x99#32)]) 0xAC020008 2 8 = some (5#32, 5#32, 1#32) ∧
    after (st 0 [(1, 0x20#32)] []) 0xAC210000 1 0x20 = some (0x20#32, 0x20#32, 1#32) := by decide

/-- 95_test_vectors.md: SW to the top cell, which faults when only 1024 cells are provisioned. -/
theorem test_sw_range :
    after (st 0 [(2, 5#32)] []) 0xAC02FFFF 2 0xFFFFFFFF = some (5#32, 5#32, 1#32) ∧
    faultAfter (st 9 [(2, 5#32)] [] (dmemWords := 1024)) 0xAC02FFFF =
      some (.dataAddressOutOfRange 9#32 0xFFFFFFFF#32) := by decide

/-- 95_test_vectors.md: BEQ taken, not taken on a difference in bit 31 only, and to itself. -/
theorem test_beq :
    after (st 2 [] []) 0x10200003 1 0 = some (0#32, 0#32, 6#32) ∧
    after (st 100 [(1, 0x80000000#32)] []) 0x10220005 2 0 = some (0#32, 0#32, 101#32) ∧
    after (st 7 [] []) 0x1000FFFF 1 0 = some (0#32, 0#32, 7#32) := by decide

/-- 95_test_vectors.md: BEQ backwards, across the bottom of stores of 2^32 and 2^10 entries. -/
theorem test_beq_wraps :
    after (st 0x9000 [] []) 0x10228000 1 0 = some (0#32, 0#32, 0x1001#32) ∧
    after (st 0 [(5, 123#32)] []) 0x10A5FFFE 5 0 = some (123#32, 0#32, 0xFFFFFFFF#32) ∧
    after (st 0 [(5, 123#32)] [] (pcw := 10)) 0x10A5FFFE 5 0 = some (123#32, 0#32, 0x3FF#32) := by decide

/-- 95_test_vectors.md: unsupported words do nothing, and raise nothing although the discarded address is outside. -/
theorem test_unsupported :
    after (st 3 [(0, 7#32)] []) 0x08000005 0 0 = some (7#32, 0#32, 4#32) ∧
    after (st 0 [(1, 0xF0#32), (2, 0x0F#32), (3, 0x33#32)] []) 0x00221825 3 0 = some (0x33#32, 0#32, 1#32) ∧
    after (st 0 [(1, 0xFFFFFFFF#32), (2, 0xFFFFFFFF#32)] [] (dmemWords := 16)) 0x00220000 1 0 =
      some (0xFFFFFFFF#32, 0#32, 1#32) := by decide

/-! ## Witnesses: each shows that the hypotheses of the statement it names can all be met -/

/-- The state of an outcome, or `s` where there is none: for naming the next state of a witness. -/
def stateOr (o : Host.Outcome State Fault Refusal) (s : State) : State :=
  match o with
  | .next t => t
  | _ => s

/-- A state about to store 5 to cell 9, about to do nothing the tick after. -/
def storing : State := (st 0 [(1, 9#32), (2, 5#32)] []).withFetchWord 32 0xAC220000

/-- A state at the last entry of a store of 2^10 entries, with nothing but zero words ahead. -/
def atTop : State := st 0x3FF [] [] (pcw := 10)

/-- A state at a BEQ r5, r5, -1, the last entry of a store of 2^10 entries. -/
def selfBranch : State := (st 0x3FF [(5, 7#32)] [] (pcw := 10)).withFetchWord 32 0x10A5FFFF

/-- A state about to load the last of 1024 cells, which holds 5. -/
def loadingLast : State := (st 6 [] [(1023, 5#32)] (dmemWords := 1024)).withFetchWord 32 0x8C0203FF

/-- A state about to load from the first address beyond 1024 cells. -/
def loadingOutside : State := (st 6 [] [] (dmemWords := 1024)).withFetchWord 32 0x8C020400

/-- R115: the tick that faults leaves the mark, `pc` and the destination register as they were but for the mark. -/
theorem test_settle_marks_fault :
    (settle loadingOutside).faulted = some (.dataAddressOutOfRange 6#32 0x400#32) ∧
    (settle loadingOutside).pc = 6#32 ∧ (settle loadingOutside).reg 2 = 0#32 := by decide

/-- LwRowBundleEffectAndFault: the last cell meets the first clause, the address after it the second. -/
theorem witness_lw_in_and_out_of_range :
    ((State.reset.reg 0 + sext32 1023#16).toNat < (st 0 [] [] 1024).cfg.dmemWords) ∧
    ((st 0 [] [] 1024).cfg.dmemWords ≤ (State.reset.reg 0 + sext32 1024#16).toNat) ∧
    loadingOutside.faulted = none ∧ decode loadingOutside.fetch = .lw 0 2 1024#16 ∧
    loadingOutside.cfg.dmemWords ≤ (loadingOutside.reg 0 + sext32 1024#16).toNat := by decide

/-- SwRowBundleEffectAndFault: the last cell meets the first clause, the address after it the second. -/
theorem witness_sw_in_and_out_of_range :
    ((st 0 [(1, 1#32)] [] 1024).reg 1 + sext32 1022#16).toNat < (st 0 [(1, 1#32)] [] 1024).cfg.dmemWords ∧
    (st 0 [(1, 1#32)] [] 1024).cfg.dmemWords ≤ ((st 0 [(1, 1#32)] [] 1024).reg 1 + sext32 1023#16).toNat ∧
    decode ((st 0 [(1, 1#32)] [] 1024).withFetchWord 32 0xAC2203FF).fetch = .sw 1 2 1023#16 := by decide

/-- UnsupportedWordsBundleAndEffect: pairs outside the table, by opcode and by function code. -/
theorem witness_pairs_outside_the_table :
    (0x05#6).toNat ∉ [0x00, 0x04, 0x08, 0x0d, 0x0f, 0x23, 0x2b] ∧ (0x00#6).toNat = 0x00 ∧
    (0x22#6).toNat ∉ [0x20, 0x24, 0x2a] := by decide

/-- DecodedOperandsAreTheFields: a word for each of its clauses. -/
theorem witness_decoded_operands :
    decode 0x00221FE0#32 = .add 1 2 3 31 ∧ decode 0x8C22FFFC#32 = .lw 1 2 0xFFFC#16 ∧
    decode 0x08000005#32 = .unsupported 0x08000005#32 := by decide

/-- DecodeOfEncode: well-formed instructions, an unsupported word among them. -/
theorem witness_wf_instructions :
    (Instr.sw 31 31 0xFFFF#16).wf = true ∧ (Instr.unsupported 0xFFFFFFFF#32).wf = true := by decide

/-- RowsAreMutuallyExclusive: a row and a word that fits it. -/
theorem witness_row_fits : ∃ r ∈ opcodeRows, 0x00221FE0#32 &&& r.mask = r.pattern :=
  ⟨⟨"ADD", 0x00000020#32, 0xFC00003F#32⟩, by decide, by decide⟩

/-- StepRunsTheDecodedInstruction, StepIsTheDatapathTick: a machine that is not faulted, at a SW. -/
theorem witness_step : storing.faulted = none ∧ decode (storing.imWord storing.pc) = .sw 1 2 0#16 := by decide

/-- PortsCarryTheTick: ticks that complete, one with the data port writing, one without, and one of a LW of the last
provisioned cell. -/
theorem witness_ports :
    (∃ t, step storing = .next t ∧ (ports storing).dmemWe = true ∧ decode storing.fetch = .sw 1 2 0#16) ∧
    (∃ t, step atTop = .next t ∧ (ports atTop).dmemWe = false ∧ (ports atTop).dmemAddr.toNat < atTop.cfg.dmemWords) ∧
    (∃ t, step loadingLast = .next t ∧ decode loadingLast.fetch = .lw 0 2 1023#16) :=
  ⟨⟨stateOr (step storing) storing, rfl, by decide, by decide⟩, ⟨stateOr (step atTop) atTop, rfl, by decide, by decide⟩,
    ⟨stateOr (step loadingLast) loadingLast, rfl, by decide⟩⟩

/-- R104, R88: the read port in the tick of a LW: address 1023 and the word there. -/
theorem test_ports_of_load :
    (ports loadingLast).dmemAddr = 0x3FF#32 ∧ (ports loadingLast).dmemRdata = some 5#32 ∧
    (ports loadingLast).dmemWe = false := by decide

/-- PcAdvancesModuloPcw: a taken BEQ and an ADD, both at the last entry of the store. -/
theorem witness_pc_advances :
    atTop.cfg.wf ∧ (∃ t, exec (.beq 1 2 0xFFFE#16) atTop = .next t ∧ atTop.reg 1 = atTop.reg 2) ∧
    (∃ t, exec (.add 1 2 3 0) atTop = .next t) ∧
    (∃ t, exec (.beq 5 0 1#16) selfBranch = .next t ∧ selfBranch.reg 5 ≠ selfBranch.reg 0) :=
  ⟨by decide, ⟨stateOr (exec (.beq 1 2 0xFFFE#16) atTop) atTop, rfl, by decide⟩,
    ⟨stateOr (exec (.add 1 2 3 0) atTop) atTop, rfl⟩,
    ⟨stateOr (exec (.beq 5 0 1#16) selfBranch) selfBranch, rfl, by decide⟩⟩

/-- SelfBranchHoldsTheState. -/
theorem witness_self_branch :
    selfBranch.cfg.wf ∧ selfBranch.pc.toNat < 2 ^ selfBranch.cfg.pcw ∧ selfBranch.faulted = none ∧
    decode selfBranch.fetch = .beq 5 5 0xFFFF#16 := by decide

/-- UnsupportedStretchOnlyAdvances: two ticks, the first of them across the top of the store. -/
theorem witness_stretch :
    atTop.cfg.wf ∧ atTop.pc.toNat < 2 ^ atTop.cfg.pcw ∧ atTop.faulted = none ∧
    ∀ k < 2, ∃ w, decode (atTop.imWord (BitVec.ofNat 32 ((atTop.pc.toNat + k) % 2 ^ atTop.cfg.pcw))) = .unsupported w :=
  ⟨⟨by decide, by decide, by decide, by decide⟩, by decide, by decide,
    fun k hk => ⟨0#32, by interval_cases k <;> decide⟩⟩

/-- OnlyTheDestinationChanges: a register that changes. -/
theorem witness_register_changes : ∃ t, exec (.addi 0 3 1#16) State.reset = .next t ∧ t.reg 3 ≠ State.reset.reg 3 :=
  ⟨stateOr (exec (.addi 0 3 1#16) State.reset) State.reset, rfl, by decide⟩

/-- UnusedRegisterHasNoInfluence: a register that is only the destination, and one the instruction does not name. -/
theorem witness_unused_register :
    ∃ t, exec (.lw 1 2 0#16) storing = .next t ∧ (2 : RegIdx) ∉ (Instr.lw 1 2 0#16).uses ∧
      (7 : RegIdx) ∉ (Instr.lw 1 2 0#16).uses :=
  ⟨stateOr (exec (.lw 1 2 0#16) storing) storing, rfl, by decide, by decide⟩

/-- RegisterKeepsItsValue: one tick, of a SW, which writes no register. -/
theorem witness_register_kept :
    ∃ t, runTicks 1 storing = .next t ∧
      ∀ k < 1, ∀ u, runTicks k storing = .next u → (decode u.fetch).writes ≠ some 2 := by
  refine ⟨stateOr (runTicks 1 storing) storing, rfl, fun k hk u hu => ?_⟩
  obtain rfl : k = 0 := by omega
  cases hu
  decide

/-- OnlyStoreWritesDataMemory: a cell that changes. -/
theorem witness_cell_changes : ∃ t, exec (.sw 1 2 0#16) storing = .next t ∧ t.cell 9 ≠ storing.cell 9 :=
  ⟨stateOr (exec (.sw 1 2 0#16) storing) storing, rfl, by decide⟩

/-- OnlyLoadUsesDataMemory: a SW for its first clause and an ADD for its second. -/
theorem witness_not_a_load :
    (∀ rs rt imm, Instr.sw 1 2 0#16 ≠ .lw rs rt imm) ∧ (∃ t, exec (.sw 1 2 0#16) storing = .next t) ∧
    (∀ rs rt imm, Instr.add 1 2 3 0 ≠ .lw rs rt imm ∧ Instr.add 1 2 3 0 ≠ .sw rs rt imm) ∧
    ∃ t, exec (.add 1 2 3 0) storing = .next t :=
  ⟨nofun, ⟨stateOr (exec (.sw 1 2 0#16) storing) storing, rfl⟩, fun _ _ _ => ⟨nofun, nofun⟩,
    ⟨stateOr (exec (.add 1 2 3 0) storing) storing, rfl⟩⟩

/-- StoreThenLaterLoad: the store of `storing`, one tick of an unsupported word, and a load of the same cell. -/
theorem witness_store_then_load :
    ∃ t u, exec (.sw 1 2 0#16) storing = .next t ∧ runTicks 1 t = .next u ∧
      (∀ k < 1, ∀ v, runTicks k t = .next v → ¬ StoresTo v (storing.effectiveAddress 1 0#16)) ∧
      u.effectiveAddress 0 9#16 = storing.effectiveAddress 1 0#16 := by
  refine ⟨stateOr (exec (.sw 1 2 0#16) storing) storing, stateOr (runTicks 2 storing) storing, rfl, rfl, ?_, by decide⟩
  intro k hk v hv
  obtain rfl : k = 0 := by omega
  cases hv
  rintro ⟨rs, rt, imm, hd, -⟩
  have hu : decode (stateOr (exec (.sw 1 2 0#16) storing) storing).fetch = .unsupported 0#32 := by decide
  rw [hu] at hd
  cases hd

/-- NeverStoredCellHoldsZero: one tick of the empty program. -/
theorem witness_never_stored :
    ∃ u, runTicks 1 (State.resetWith Config.default []) = .next u ∧
      ∀ k < 1, ∀ v, runTicks k (State.resetWith Config.default []) = .next v → ¬ StoresTo v 3#32 := by
  refine ⟨stateOr (runTicks 1 State.reset) State.reset, rfl, fun k hk v hv => ?_⟩
  obtain rfl : k = 0 := by omega
  cases hv
  rintro ⟨rs, rt, imm, hd, -⟩
  have hu : decode (State.resetWith Config.default []).fetch = .unsupported 0#32 := by decide
  rw [hu] at hd
  cases hd

/-- InstructionStoreIsConstant: a run that completes, through a store. -/
theorem witness_run : ∃ t, runTicks 2 storing = .next t := ⟨stateOr (runTicks 2 storing) storing, rfl⟩

/-- OutOfRangeAccessFaults: a machine that is not faulted and faults in this tick; and one with the full data memory. -/
theorem witness_fault :
    loadingOutside.faulted = none ∧ step loadingOutside = .fault (.dataAddressOutOfRange 6#32 0x400#32) ∧
    AccessesOutside loadingOutside 0x400#32 ∧ storing.faulted = none ∧ storing.cfg.dmemWords = 2 ^ 32 :=
  ⟨by decide, rfl, ⟨0, 2, 0x400#16, by decide, by decide, by decide⟩, by decide, by decide⟩

/-- FullMemoryMachineNeverStops, RunAndSettleAgree: the reset state. -/
theorem witness_full_memory : State.reset.faulted = none ∧ State.reset.cfg.dmemWords = 2 ^ 32 := by decide

/-- LoadedResetMeetsTheInvariant: the smallest parameters, with a program that fills the store. -/
theorem witness_loaded_reset :
    Config.wf { pcw := 1, dmemWords := 1 } ∧ ([0x1000FFFF#32, 0x00000000#32] : List Word).length ≤ 2 ^ 1 := by decide

/-- StepKeepsTheInvariant, SettleKeepsTheInvariant: states with listed memory that meet the invariant, one whose tick
completes and one whose tick faults. -/
theorem witness_invariant :
    selfBranch.Inv ∧ (∃ t, step selfBranch = .next t) ∧ loadingOutside.Inv ∧
      step loadingOutside = .fault (.dataAddressOutOfRange 6#32 0x400#32) :=
  ⟨⟨by decide, by decide, ⟨by decide, by decide⟩, ⟨by decide, by decide⟩, fun _ _ h => by cases h⟩,
    ⟨stateOr (step selfBranch) selfBranch, rfl⟩,
    ⟨by decide, by decide, ⟨by decide, by decide⟩, ⟨by decide, by decide⟩, fun _ _ h => by cases h⟩, rfl⟩

end Sys2Proof.Machine
end

section
/-! The extensions and the truncation of R8 as integers, and the invariant at the loaded reset state (R22, R24). -/

namespace Sys2Proof.Machine

/-- The sign bit of the immediate, its bit 15, adds `2 ^ 32 - 2 ^ 16` (R8, R44). -/
theorem sext32_toNat (v : Imm) :
    (sext32 v).toNat = if v.toNat < 2 ^ 15 then v.toNat else 0xFFFF0000 + v.toNat := by
  have hlow : (v.setWidth 32).toNat = v.toNat := BitVec.toNat_setWidth_of_le (by decide)
  have hmsb : v.msb = decide (2 ^ 15 ≤ v.toNat) := BitVec.msb_eq_decide v
  rw [sext32, BitVec.toNat_signExtend, hlow, hmsb]
  rcases Nat.lt_or_ge v.toNat (2 ^ 15) with h | h
  · rw [if_pos h, decide_eq_false (Nat.not_le.mpr h), if_neg Bool.false_ne_true, Nat.add_zero]
  · rw [if_neg (Nat.not_lt.mpr h), decide_eq_true h, if_pos rfl]
    omega

@[simp] theorem zext32_toNat (v : Imm) : (zext32 v).toNat = v.toNat :=
  BitVec.toNat_setWidth_of_le (by decide)

/-- Holding the truncated value in 32 bits again loses nothing, for any width of the truncation (R8, R16; log 8). -/
@[simp] theorem truncPcw_toNat (n : Nat) (v : Word) : (truncPcw n v).toNat = v.toNat % 2 ^ n := by
  have h : v.toNat % 2 ^ n < 2 ^ 32 := (Nat.mod_le _ _).trans_lt v.isLt
  rw [truncPcw, BitVec.toNat_ofNat, Nat.mod_eq_of_lt h]

/-- Settles O22. -/
theorem extensionsAndTruncation : Obligations.ExtensionsAndTruncation :=
  ⟨sext32_toNat, zext32_toNat, truncPcw_toNat⟩

theorem Memory.fits_nil (bound : Nat) : Memory.Fits [] bound where
  canonical := ⟨.nil, fun _ h => nomatch h⟩
  below _ h := nomatch h

/-- A program image loaded from index `k` on ends before `k + ws.length` (R106). -/
theorem Memory.ofWords_fits {k bound : Nat} {ws : List Word} (h : k + ws.length ≤ bound) :
    (Memory.ofWords k ws).Fits bound where
  canonical := Memory.ofWords_wf k ws
  below _ hp := (Memory.mem_ofWords hp).2.1.trans_le h

/-- Settles O41: `pc` is 0, the data memory is empty, the program lies within the store, and no fault is recorded. -/
theorem loadedResetMeetsTheInvariant : Obligations.LoadedResetMeetsTheInvariant := fun cfg _ hcfg hlen =>
  { cfg := hcfg
    pc_lt := Nat.two_pow_pos cfg.pcw
    dmem := Memory.fits_nil cfg.dmemWords
    imem := Memory.ofWords_fits ((Nat.zero_add _).trans_le hlen)
    fault := fun _ _ h => nomatch h }

end Sys2Proof.Machine
end

section
/-! What a tick does to the machine's invariant and to the program counter (R15, R16, R21, R22, R33, R94). -/

namespace Sys2Proof.Machine

/-- Settles O40: the reset state is the loaded reset state of the empty program with the default parameters. -/
theorem resetMeetsTheInvariant : Obligations.ResetMeetsTheInvariant :=
  loadedResetMeetsTheInvariant Config.default [] (by decide) (Nat.zero_le _)

/-- A tick that raises nothing and stores, or uses what it loads, addresses a provisioned cell (R33). -/
theorem raises_eq_false_iff (g : Signals) (s : State) : raises g s = false ↔
    (g.control.memWrite = true ∨ g.control.memToReg = true → g.aluResult.toNat < s.cfg.dmemWords) := by
  cases hw : g.control.memWrite <;> cases hr : g.control.memToReg <;> simp [raises, State.inRange, hw, hr]

/-- A write at an index below the bound keeps a memory canonical and below it. -/
theorem Memory.Fits.write {m : Memory} {bound a : Nat} (h : m.Fits bound) (ha : a < bound) (v : Word) :
    (m.write a v).Fits bound where
  canonical := Memory.write_wf a v h.canonical
  below p hp := by
    rcases Memory.mem_write hp with ⟨rfl, -⟩ | hp
    · exact ha
    · exact h.below p hp

/-- The Program-Counter Updater answers a `PCW`-bit value (R15, R16). -/
theorem nextPcValue_lt (pcw : Nat) (pc : Word) (taken : Bool) (imm : Imm) :
    (nextPcValue pcw pc taken imm).toNat < 2 ^ pcw := by
  cases taken <;> simp [nextPcValue, Nat.mod_lt]

/-- The commit of a tick that raises nothing keeps the data memory canonical and provisioned (R21, R33). -/
theorem commit_dmem_fits {g : Signals} {s : State} (h : s.dmem.Fits s.cfg.dmemWords) (hr : raises g s = false) :
    (commit g s).dmem.Fits s.cfg.dmemWords := by
  rw [commit_dmem]
  split
  next hw => exact h.write ((raises_eq_false_iff g s).mp hr (.inl hw)) _
  next => exact h

/-- Settles O42: a tick that completes is a commit that raised nothing, in a machine that was not faulted; each clause
of the invariant follows from the commit's own field. -/
theorem stepKeepsTheInvariant : Obligations.StepKeepsTheInvariant := by
  intro s t hs hstep
  obtain ⟨hnone, hexec⟩ := step_next_inv hstep
  obtain ⟨hr, rfl⟩ := exec_next_inv hexec
  exact
    { cfg := by simpa using hs.cfg
      pc_lt := by simpa [signals_nextPc] using nextPcValue_lt _ _ _ _
      dmem := by simpa using commit_dmem_fits hs.dmem hr
      imem := by simpa using hs.imem
      fault := by simp [hnone] }

/-- The bundle of BEQ alone enables the branch (R60). -/
theorem control_branch_iff (i : Instr) : i.control.branch = true ↔ ∃ rs rt imm, i = .beq rs rt imm := by
  cases i
  case beq rs rt imm => exact iff_of_true rfl ⟨rs, rt, imm, rfl⟩
  all_goals exact iff_of_false Bool.false_ne_true nofun

/-- A BEQ is taken exactly when its two registers are equal (R66, R70, R92). -/
theorem taken_beq (rs rt : RegIdx) (imm : Imm) (s : State) :
    (signals (Instr.beq rs rt imm).control (Instr.beq rs rt imm).operands s).taken = decide (s.reg rs = s.reg rt) :=
  zeroFlag_subtract (s.reg rs) (s.reg rt)

/-- A tick is taken only by a BEQ of equal registers (R70, R92). -/
theorem taken_eq_false {i : Instr} {s : State} (h : ∀ rs rt imm, i = .beq rs rt imm → s.reg rs ≠ s.reg rt) :
    (signals i.control i.operands s).taken = false := by
  by_cases hb : i.control.branch = true
  · obtain ⟨rs, rt, imm, rfl⟩ := (control_branch_iff i).mp hb
    rw [taken_beq, decide_eq_false (h rs rt imm rfl)]
  · rw [signals_taken, Bool.eq_false_of_not_eq_true hb, Bool.false_and]

/-- Truncation to at most 32 bits of an integer taken modulo `2 ^ 32` is the integer modulo `2 ^ pcw` (R8, R16). -/
theorem truncPcw_ofInt {pcw : Nat} (h : pcw ≤ 32) (x : Int) :
    ((truncPcw pcw (BitVec.ofInt 32 x)).toNat : Int) = x % 2 ^ pcw := by
  have hdvd : (2 ^ pcw : Int) ∣ 2 ^ 32 := pow_dvd_pow 2 h
  have hnonneg : 0 ≤ x % ((2 ^ 32 : Nat) : Int) := Int.emod_nonneg x (by decide)
  rw [truncPcw_toNat, BitVec.toNat_ofInt, Int.natCast_emod, Int.toNat_of_nonneg hnonneg, Nat.cast_pow, Nat.cast_ofNat]
  exact Int.emod_emod_of_dvd x hdvd

/-- The target of a branch, before truncation, is the signed sum modulo `2 ^ 32` (R8, R94). -/
theorem branchTarget_eq_ofInt (pc : Word) (imm : Imm) :
    pc + 1#32 + sext32 imm = BitVec.ofInt 32 ((pc.toNat : Int) + 1 + imm.toInt) := by
  rw [BitVec.ofInt_add, BitVec.ofInt_add, BitVec.ofInt_natCast, BitVec.ofNat_toNat, BitVec.setWidth_eq]
  rfl

theorem nextPcValue_taken {pcw : Nat} (h : pcw ≤ 32) (pc : Word) (imm : Imm) :
    ((nextPcValue pcw pc true imm).toNat : Int) = ((pc.toNat : Int) + 1 + imm.toInt) % 2 ^ pcw := by
  rw [nextPcValue, if_pos rfl, branchTarget_eq_ofInt, truncPcw_ofInt h]

theorem nextPcValue_not_taken {pcw : Nat} (h : pcw ≤ 32) (pc : Word) (imm : Imm) :
    (nextPcValue pcw pc false imm).toNat = (pc.toNat + 1) % 2 ^ pcw := by
  rw [nextPcValue, if_neg Bool.false_ne_true, truncPcw_toNat, BitVec.toNat_add]
  exact Nat.mod_mod_of_dvd _ (pow_dvd_pow 2 h)

/-- Settles O24: the commit's program counter is the Updater's value, taken exactly for a BEQ of equal registers. -/
theorem pcAdvancesModuloPcw : Obligations.PcAdvancesModuloPcw := by
  intro i s t ⟨_, hpcw, _⟩ hexec
  obtain ⟨-, rfl⟩ := exec_next_inv hexec
  rw [commit_pc, signals_nextPc]
  constructor
  · rintro rs rt imm rfl heq
    rw [taken_beq, decide_eq_true heq]
    exact nextPcValue_taken hpcw s.pc imm
  · intro hne
    rw [taken_eq_false hne]
    exact nextPcValue_not_taken hpcw s.pc _

end Sys2Proof.Machine
end

section
/-! Which registers and cells an instruction changes, which have an influence on it, and what a run keeps (R12, R14,
R21, R31, R32, R69). -/

namespace Sys2Proof.Machine

/-! ## What the control bundles enable -/

/-- The table of R12 is the Control Unit's: an instruction writes the destination index of R69 if its bundle enables the
register write, and no register otherwise. -/
theorem writes_eq (i : Instr) :
    i.writes = if i.control.regWrite then some (destination i.control i.operands) else none := by
  cases i <;> rfl

theorem control_memWrite_iff (i : Instr) : i.control.memWrite = true ↔ ∃ rs rt imm, i = .sw rs rt imm := by
  cases i
  case sw rs rt imm => exact iff_of_true rfl ⟨rs, rt, imm, rfl⟩
  all_goals exact iff_of_false Bool.false_ne_true nofun

theorem control_memToReg_iff (i : Instr) : i.control.memToReg = true ↔ ∃ rs rt imm, i = .lw rs rt imm := by
  cases i
  case lw rs rt imm => exact iff_of_true rfl ⟨rs, rt, imm, rfl⟩
  all_goals exact iff_of_false Bool.false_ne_true nofun

theorem writes_eq_some_iff (i : Instr) (r : RegIdx) :
    i.writes = some r ↔ i.control.regWrite = true ∧ destination i.control i.operands = r := by
  rw [writes_eq, Option.ite_none_right_eq_some, Option.some_inj]

/-! ## What changes -/

/-- Settles O27: a commit changes only the destination of an enabled register write, which is the register of R12. -/
theorem onlyTheDestinationChanges : Obligations.OnlyTheDestinationChanges := by
  intro i s t r hexec hne
  obtain ⟨-, rfl⟩ := exec_next_inv hexec
  rw [commit_reg] at hne
  obtain ⟨⟨hw, rfl⟩, -⟩ := ite_ne_right_iff.mp hne
  exact (writes_eq_some_iff i _).mpr ⟨hw, rfl⟩

/-- Settles O30: a commit changes only the cell at the ALU result of an enabled memory write, which is a SW's. -/
theorem onlyStoreWritesDataMemory : Obligations.OnlyStoreWritesDataMemory := by
  intro i s t a hexec hne
  obtain ⟨-, rfl⟩ := exec_next_inv hexec
  rw [commit_cell] at hne
  obtain ⟨⟨hw, rfl⟩, -⟩ := ite_ne_right_iff.mp hne
  obtain ⟨rs, rt, imm, rfl⟩ := (control_memWrite_iff i).mp hw
  exact ⟨rs, rt, imm, rfl, rfl⟩

/-! ## Runs -/

/-- A value that every tick at a state with `P` leaves alone stays through a run whose ticks all start at such
states. -/
theorem runTicks_keeps {α : Type} {f : State → α} {P : State → Prop}
    (hstep : ∀ u v, P u → step u = .next v → f v = f u) {n : Nat} {s t : State} (hrun : runTicks n s = .next t)
    (hP : ∀ k < n, ∀ u, runTicks k s = .next u → P u) : f t = f s := by
  induction n generalizing s with
  | zero => cases hrun; rfl
  | succ n ih =>
    obtain ⟨v, hv, hrest⟩ := runTicks_succ_inv hrun
    have hlater : ∀ k < n, ∀ u, runTicks k v = .next u → P u := fun k hk u hu =>
      hP (k + 1) (Nat.succ_lt_succ hk) u (by simpa only [runTicks, hv] using hu)
    exact (ih hrest hlater).trans (hstep s v (hP 0 n.succ_pos s rfl) hv)

/-- Settles O29: each tick keeps the register, by the frame of the decoded instruction. -/
theorem registerKeepsItsValue : Obligations.RegisterKeepsItsValue := by
  intro n s t r hrun hnot
  refine runTicks_keeps (f := fun u => u.reg r) (fun u v hu hstep => ?_) hrun hnot
  by_contra hne
  exact hu (onlyTheDestinationChanges _ u v r (step_next_inv hstep).2 hne)

/-! ## What has an influence -/

/-- Two ticks' signals agree on everything that the range check and the commit use. -/
structure Signals.SameCommit (g g' : Signals) : Prop where
  control : g'.control = g.control
  dest : g'.dest = g.dest
  nextPc : g'.nextPc = g.nextPc
  wb : g.control.regWrite = true → g'.wb = g.wb
  address : g.control.memWrite = true ∨ g.control.memToReg = true → g'.aluResult = g.aluResult
  stored : g.control.memWrite = true → g'.rtVal = g.rtVal

theorem Signals.SameCommit.raises_eq {g g' : Signals} (h : g.SameCommit g') {s s' : State} (hc : s'.cfg = s.cfg) :
    raises g' s' = raises g s := by
  unfold raises State.inRange
  rw [h.control, hc]
  by_cases hm : g.control.memWrite = true ∨ g.control.memToReg = true
  · rw [h.address hm]
  · rw [not_or, Bool.not_eq_true, Bool.not_eq_true] at hm
    simp only [hm, Bool.or_self, Bool.false_and]

theorem Signals.SameCommit.commit_eq {g g' : Signals} (h : g.SameCommit g') (s : State) : commit g' s = commit g s := by
  have hreg : commitReg g' s = commitReg g s := by
    unfold commitReg
    rw [h.control, h.dest]
    split
    next hw => rw [h.wb hw]
    next => rfl
  have hmem (u : State) : commitMem g' u = commitMem g u := by
    unfold commitMem
    rw [h.control]
    split
    next hw => rw [h.address (.inl hw), h.stored hw]
    next => rfl
  rw [commit, commit, hreg, hmem, h.nextPc]

/-- An instruction that completes at `s` completes at any state at which its signals agree with those at `s`, and
commits the signals at `s` there. -/
theorem exec_next_of_sameCommit {i : Instr} {s s' t : State} (hexec : exec i s = .next t) (hc : s'.cfg = s.cfg)
    (h : (signals i.control i.operands s).SameCommit (signals i.control i.operands s')) :
    exec i s' = .next (commit (signals i.control i.operands s) s') := by
  obtain ⟨hr, -⟩ := exec_next_inv hexec
  rw [exec_eq_cycle, cycle_next ((h.raises_eq hc).trans hr), h.commit_eq]

theorem aluResult_congr {c : Control} {o : Operands} {s s' : State} (hrs : s'.reg o.rs = s.reg o.rs)
    (hrt : c.aluSrc = .reg → s'.reg o.rt = s.reg o.rt) :
    (signals c o s').aluResult = (signals c o s).aluResult := by
  rw [signals_aluResult, signals_aluResult, hrs]
  cases hsrc : c.aluSrc with
  | reg => rw [hrt hsrc]
  | imm => rfl

theorem reg_setReg_of_not_mem_uses {i : Instr} {r q : RegIdx} (hr : r ∉ i.uses) (hq : q ∈ i.uses) (s : State)
    (v : Word) : (s.setReg r v).reg q = s.reg q :=
  s.reg_setReg_other v fun h => hr (h ▸ hq)

/-- The ALU result of a supported instruction depends on no register but those it uses (R12). -/
theorem aluResult_setReg {i : Instr} {r : RegIdx} (hr : r ∉ i.uses) (hi : ∀ w, i ≠ .unsupported w) (s : State)
    (v : Word) :
    (signals i.control i.operands (s.setReg r v)).aluResult = (signals i.control i.operands s).aluResult := by
  have huse {q : RegIdx} (hq : q ∈ i.uses) := reg_setReg_of_not_mem_uses hr hq s v
  cases i with
  | add rs rt rd sh | and rs rt rd sh | slt rs rt rd sh =>
    exact aluResult_congr (huse List.mem_cons_self) fun _ => huse (List.mem_cons_of_mem rs List.mem_cons_self)
  | beq rs rt imm =>
    exact aluResult_congr (huse List.mem_cons_self) fun _ => huse (List.mem_cons_of_mem rs List.mem_cons_self)
  | addi rs rt imm | ori rs rt imm | lw rs rt imm | sw rs rt imm =>
    exact aluResult_congr (huse List.mem_cons_self) nofun
  | lui rs rt imm => rfl
  | unsupported w => exact absurd rfl (hi w)

/-- A register that the instruction does not use has no part in what it checks and commits (R12). -/
theorem sameCommit_setReg {i : Instr} {r : RegIdx} (hr : r ∉ i.uses) (s : State) (v : Word) :
    (signals i.control i.operands s).SameCommit (signals i.control i.operands (s.setReg r v)) := by
  by_cases hi : ∃ w, i = .unsupported w
  · obtain ⟨w, rfl⟩ := hi
    exact ⟨rfl, rfl, rfl, nofun, nofun, nofun⟩
  · have halu := aluResult_setReg hr (not_exists.mp hi) s v
    have hmem : (signals i.control i.operands (s.setReg r v)).memData = (signals i.control i.operands s).memData := by
      rw [signals_memData, signals_memData, halu]
      rfl
    refine ⟨rfl, rfl, ?nextPc, fun _ => ?wb, fun _ => halu, fun hw => ?stored⟩
    case nextPc =>
      rw [signals_nextPc, signals_nextPc, signals_taken, signals_taken, halu]
      rfl
    case wb => rw [signals_wb, signals_wb, halu, hmem]
    case stored =>
      obtain ⟨rs, rt, imm, rfl⟩ := (control_memWrite_iff i).mp hw
      exact reg_setReg_of_not_mem_uses hr (List.mem_cons_of_mem rs List.mem_cons_self) s v

/-- A tick that raises nothing has a word to write back: a LW's address is then provisioned (R67, R68). -/
theorem wb_eq_some_of_raises_eq_false {i : Instr} {s : State} (hr : raises (signals i.control i.operands s) s = false) :
    ∃ w, (signals i.control i.operands s).wb = some w := by
  by_cases hm : i.control.memToReg = true
  · have hin := (raises_eq_false_iff _ s).mp hr (.inr hm)
    obtain ⟨rs, rt, imm, rfl⟩ := (control_memToReg_iff i).mp hm
    exact ⟨s.cell (s.effectiveAddress rs imm), if_pos (decide_eq_true hin)⟩
  · exact ⟨_, if_neg hm⟩

theorem State.setReg_setReg_same (s : State) (i : RegIdx) (v w : Word) : (s.setReg i v).setReg i w = s.setReg i w := by
  simp only [State.setReg, Vector.set_set]

theorem State.setReg_comm (s : State) {i j : RegIdx} (v w : Word) (h : i ≠ j) :
    (s.setReg i v).setReg j w = (s.setReg j w).setReg i v := by
  have hij : i.toNat ≠ j.toNat := fun he => h (BitVec.eq_of_toNat_eq he)
  simp only [State.setReg, Vector.set_comm _ _ hij]

/-- A register set before the commit is the same register set after it, unless the commit overwrites it (R14, R69). -/
theorem commit_setReg {g : Signals} {w : Word} (hwb : g.wb = some w) (s : State) (r : RegIdx) (v : Word) :
    commit g (s.setReg r v) =
      if g.control.regWrite = true ∧ g.dest = r then commit g s else (commit g s).setReg r v := by
  have hreg : commitReg g (s.setReg r v) =
      if g.control.regWrite = true ∧ g.dest = r then commitReg g s else (commitReg g s).setReg r v := by
    simp only [commitReg, hwb]
    by_cases hw : g.control.regWrite = true
    · by_cases hd : g.dest = r
      · simp only [hw, hd, and_self, if_true, State.setReg_setReg_same]
      · simp only [hw, hd, and_false, if_true, if_false, State.setReg_comm s v w (Ne.symm hd)]
    · simp only [hw, Bool.false_eq_true, false_and, if_false]
  rw [commit, hreg]
  split
  next => rfl
  next => cases hm : g.control.memWrite <;> simp only [commit, commitMem, hm] <;> rfl

/-- Settles O28: the signals of the two ticks agree on what is committed, and a commit passes the changed register on
unless it overwrites it. -/
theorem unusedRegisterHasNoInfluence : Obligations.UnusedRegisterHasNoInfluence := by
  intro i s t r v hr hexec
  obtain ⟨hraise, rfl⟩ := exec_next_inv hexec
  obtain ⟨w, hwb⟩ := wb_eq_some_of_raises_eq_false hraise
  rw [exec_next_of_sameCommit hexec (State.setReg_cfg s r v) (sameCommit_setReg hr s v), commit_setReg hwb]
  exact congrArg _ (if_congr (writes_eq_some_iff i r).symm rfl rfl)

/-- The data memory's content reaches the commit through the write-back of a load alone (R31, R32, R68). -/
theorem sameCommit_withDmem {i : Instr} (h : i.control.memToReg ≠ true) (s : State) (m : Memory) :
    (signals i.control i.operands s).SameCommit (signals i.control i.operands { s with dmem := m }) := by
  refine ⟨rfl, rfl, rfl, fun _ => ?wb, fun _ => rfl, fun _ => rfl⟩
  case wb =>
    rw [signals_wb, signals_wb, writeBack, writeBack, if_neg h, if_neg h]
    rfl

/-- Of a commit only the data memory depends on the data memory before it (R67). -/
theorem commit_withDmem (g : Signals) (s : State) (m : Memory) : commit g { s with dmem := m } =
    { commit g s with dmem := if g.control.memWrite = true then m.write g.aluResult.toNat g.rtVal else m } := by
  have hreg : commitReg g { s with dmem := m } = { commitReg g s with dmem := m } := by
    cases hw : g.control.regWrite <;> cases hb : g.wb <;> simp only [commitReg, hw, hb] <;> rfl
  rw [commit, hreg]
  cases hm : g.control.memWrite <;> simp only [commit, commitMem, hm] <;> rfl

/-- Settles O31: with no load the two ticks commit the same, and the commit to the replaced memory is the replacement
with the store of a SW. -/
theorem onlyLoadUsesDataMemory : Obligations.OnlyLoadUsesDataMemory := by
  intro i s t m hlw hexec
  have hload : i.control.memToReg ≠ true := fun h =>
    have ⟨rs, rt, imm, hi⟩ := (control_memToReg_iff i).mp h
    hlw rs rt imm hi
  obtain ⟨-, rfl⟩ := exec_next_inv hexec
  rw [exec_next_of_sameCommit (s' := { s with dmem := m }) hexec rfl (sameCommit_withDmem hload s m), commit_withDmem]
  constructor
  · rintro rs rt imm rfl
    rfl
  · intro hsw
    have hstore : ¬ i.control.memWrite = true := fun h =>
      have ⟨rs, rt, imm, hi⟩ := (control_memWrite_iff i).mp h
      hsw rs rt imm hi
    rw [signals_control, if_neg hstore]

end Sys2Proof.Machine
end

section
/-! The loaded reset state (R24, R106). -/

namespace Sys2Proof.Machine

/-- Nothing is loaded below the index from which a program image is loaded (R106). -/
theorem Memory.read_ofWords_of_lt {k a : Nat} (ws : List Word) (h : a < k) : (Memory.ofWords k ws).read a = 0#32 := by
  induction ws generalizing k with
  | nil => rfl
  | cons w ws ih =>
    rw [Memory.ofWords]
    split
    next => exact ih (Nat.lt_succ_of_lt h)
    next => rw [Memory.read, if_neg h.ne, ih (Nat.lt_succ_of_lt h)]

/-- The first word of an image reads back, a 0 that is not listed too; the others are where the rest is loaded. -/
theorem Memory.read_ofWords_cons (k a : Nat) (w : Word) (ws : List Word) :
    (Memory.ofWords k (w :: ws)).read a = if a = k then w else (Memory.ofWords (k + 1) ws).read a := by
  rw [Memory.ofWords]
  by_cases hw : w = 0#32
  · rw [if_pos hw]
    split
    next ha => rw [Memory.read_ofWords_of_lt ws (ha ▸ Nat.lt_succ_self a), hw]
    next => rfl
  · rw [if_neg hw, Memory.read]

/-- Word `i` of a program image loaded from index `k` on is entry `k + i`, and the entries beyond the image are 0
(R106). -/
theorem Memory.read_ofWords_add (k i : Nat) (ws : List Word) :
    (Memory.ofWords k ws).read (k + i) = ws.getD i 0#32 := by
  induction ws generalizing k i with
  | nil => rfl
  | cons w ws ih =>
    rw [Memory.read_ofWords_cons]
    cases i with
    | zero => exact if_pos rfl
    | succ i =>
      rw [if_neg (by omega), List.getD_cons_succ, ← ih (k + 1) i, Nat.add_right_comm, Nat.add_assoc]

/-- A loaded instruction store holds the program from index 0 on and 0 beyond it (R22, R106). -/
theorem State.load_imWord (s : State) (program : List Word) (i : Word) :
    (s.load program).imWord i = program.getD i.toNat 0#32 := by
  show (Memory.ofWords 0 program).read i.toNat = program.getD i.toNat 0#32
  simpa only [Nat.zero_add] using Memory.read_ofWords_add 0 i.toNat program

/-- Settles O39: the registers are the reset state's, the data memory is empty, and the instruction store reads as the
program loaded from index 0 on. -/
theorem resetStateIsAllZero : Obligations.ResetStateIsAllZero := by
  refine ⟨fun cfg program => ?_, rfl⟩
  exact ⟨State.reset_reg, fun _ => rfl, rfl, State.load_imWord { State.reset with cfg := cfg } program, rfl, rfl⟩

end Sys2Proof.Machine
end

section
/-! What a run keeps of the two memories: the instruction store, and each data memory cell that no tick stores to (R21,
R36, R39). -/

namespace Sys2Proof.Machine

theorem step_imem {s t : State} (h : step s = .next t) : t.imem = s.imem := by
  obtain ⟨-, rfl⟩ := exec_next_inv (step_next_inv h).2
  exact commit_imem _ s

/-- A tick that does not store to a cell leaves it alone (R21). -/
theorem step_cell_of_not_storesTo {s t : State} {a : Word} (hnot : ¬ StoresTo s a) (h : step s = .next t) :
    t.cell a = s.cell a := by
  by_contra hne
  obtain ⟨rs, rt, imm, hd, ha⟩ := onlyStoreWritesDataMemory _ s t a (step_next_inv h).2 hne
  exact hnot ⟨rs, rt, imm, hd, ha.symm⟩

/-- A cell keeps its value through a run none of whose ticks stores to it (R21). -/
theorem runTicks_cell_of_not_storesTo {n : Nat} {s t : State} {a : Word} (hrun : runTicks n s = .next t)
    (hnot : ∀ k < n, ∀ u, runTicks k s = .next u → ¬ StoresTo u a) : t.cell a = s.cell a :=
  runTicks_keeps (f := fun u => u.cell a) (fun _ _ => step_cell_of_not_storesTo) hrun hnot

/-- Settles O33: the cell keeps the 0 it holds at reset. -/
theorem neverStoredCellHoldsZero : Obligations.NeverStoredCellHoldsZero := by
  intro cfg program n u a hrun hnot
  obtain ⟨-, hreset, -⟩ := resetStateIsAllZero.1 cfg program
  exact (runTicks_cell_of_not_storesTo hrun hnot).trans (hreset a)

/-- Settles O35: no tick writes the instruction store, and a word of it is read from the store alone. -/
theorem instructionStoreIsConstant : Obligations.InstructionStoreIsConstant := by
  intro n s t hrun
  have himem : t.imem = s.imem :=
    runTicks_keeps (f := State.imem) (P := fun _ => True) (fun _ _ _ => step_imem) hrun fun _ _ _ _ => trivial
  exact ⟨himem, fun i => congrArg (·.read i.toNat) himem⟩

end Sys2Proof.Machine
end

section
/-! The encoder and the decoder are inverse to each other, and the fields and rows they rest on (R41, R43, R46, R48, R54,
R55). -/

namespace Sys2Proof

/-! ## Decoding an encoded word -/

/-- A word that fits no row of R46 is decoded as unsupported (R48). -/
theorem decode_of_not_supportedWord {w : Word} (h : supportedWord w = false) : decode w = .unsupported w := by
  have hrows := (supportedWord_iff w).not.mp (Bool.eq_false_iff.mp h)
  simp only [not_or, not_and] at hrows
  obtain ⟨hfunc, hopcode⟩ := hrows
  by_cases hop : (fieldsOf w).opcode = 0#6
  · simp [decode, decodeRType, hop, hfunc hop]
  · simp [decode, hop, hopcode]

/-- Settles O13: a word built by `R` or `I` of R54 has the fields it was built from, and the decoder selects by the
opcode and the function code among them. -/
theorem decodeOfEncode : Obligations.DecodeOfEncode := by
  intro i hwf
  cases i with
  | add rs rt rd sh | and rs rt rd sh | slt rs rt rd sh =>
    simp [encode, decode, decodeRType, fieldsOf_encodeR]
  | addi rs rt imm | lui rs rt imm | ori rs rt imm | lw rs rt imm | sw rs rt imm | beq rs rt imm =>
    simp [encode, decode, fieldsOf_encodeI]
  | unsupported w => exact decode_of_not_supportedWord ((Bool.not_eq_true' _).mp hwf)

/-! ## Encoding a decoded instruction -/

/-- Settles O14: each answer of the decoder holds the word's own fields, under the opcode and function code that the
encoder puts back. -/
theorem encodeOfDecode : Obligations.EncodeOfDecode := by
  intro w
  have hR {func : Code6} (hop : (fieldsOf w).opcode = 0#6) (hfunc : (fieldsOf w).func = func) :
      encodeR func (fieldsOf w).rs (fieldsOf w).rt (fieldsOf w).rd (fieldsOf w).sh = w :=
    hfunc ▸ encodeR_fieldsOf hop
  have hI {opcode : Code6} (hop : (fieldsOf w).opcode = opcode) :
      encodeI opcode (fieldsOf w).rs (fieldsOf w).rt (fieldsOf w).imm = w :=
    hop ▸ encodeI_fieldsOf w
  rcases decode_cases w with ⟨hop, hfunc, hd⟩ | ⟨hop, hfunc, hd⟩ | ⟨hop, hfunc, hd⟩ | ⟨hop, hd⟩ | ⟨hop, hd⟩ |
    ⟨hop, hd⟩ | ⟨hop, hd⟩ | ⟨hop, hd⟩ | ⟨hop, hd⟩ | ⟨hnone, hd⟩ <;> rw [hd]
  iterate 3 exact ⟨rfl, hR hop hfunc⟩
  iterate 6 exact ⟨rfl, hI hop⟩
  exact ⟨congrArg (!·) hnone, rfl⟩

theorem encode_of_decode_eq {w : Word} {i : Instr} (h : decode w = i) : encode i = w :=
  h ▸ (encodeOfDecode w).2

/-- Settles O12: the word is the encoding of what it decodes to, and the fields of an encoded word are its operands. -/
theorem decodedOperandsAreTheFields : Obligations.DecodedOperandsAreTheFields := by
  refine fun w => ⟨fun rs rt rd sh h => ?_, fun rs rt imm h => ?_, fun v h => encode_of_decode_eq h⟩
  · obtain ⟨func, rfl⟩ : ∃ func, encodeR func rs rt rd sh = w := by
      rcases h with h | h | h <;> exact ⟨_, encode_of_decode_eq h⟩
    rw [fieldsOf_encodeR]
    exact ⟨rfl, rfl, rfl, rfl⟩
  · obtain ⟨opcode, rfl⟩ : ∃ opcode, encodeI opcode rs rt imm = w := by
      rcases h with h | h | h | h | h | h <;> exact ⟨_, encode_of_decode_eq h⟩
    rw [fieldsOf_encodeI]
    exact ⟨rfl, rfl, rfl⟩

/-! ## The rows and the fields -/

/-- Two rows of the table that agree on the bits both examine are the same row (R55). -/
theorem opcodeRows_separated :
    ∀ r ∈ opcodeRows, ∀ q ∈ opcodeRows, r.pattern &&& q.mask = q.pattern &&& r.mask → r = q := by
  decide

/-- Settles O15: rows that fit one word agree on the bits both examine. -/
theorem rowsAreMutuallyExclusive : Obligations.RowsAreMutuallyExclusive := by
  intro w r q hr hq hwr hwq
  refine opcodeRows_separated r hr q hq ?_
  rw [← hwr, ← hwq, BitVec.and_assoc, BitVec.and_assoc, BitVec.and_comm r.mask]

theorem toNat_extractLsb'_eq_div_mod {n : Nat} (w : BitVec n) (start len : Nat) :
    (w.extractLsb' start len).toNat = w.toNat / 2 ^ start % 2 ^ len := by
  rw [BitVec.extractLsb'_toNat, Nat.shiftRight_eq_div_pow]

/-- Settles O11: the opcode is the top of the word, and the fields from bit 0 on need no division. -/
theorem fieldsAreTheBitRanges : Obligations.FieldsAreTheBitRanges := by
  intro w
  have hfield := toNat_extractLsb'_eq_div_mod w
  have htop : w.toNat / 2 ^ 26 < 2 ^ 6 := Nat.div_lt_of_lt_mul w.isLt
  have hlow (len : Nat) : (w.extractLsb' 0 len).toNat = w.toNat % 2 ^ len := by
    rw [hfield, Nat.pow_zero, Nat.div_one]
  exact ⟨(hfield 26 6).trans (Nat.mod_eq_of_lt htop), hfield 21 5, hfield 16 5, hfield 11 5, hfield 6 5, hlow 6, hlow 16,
    hlow 26⟩

end Sys2Proof
end

section
/-! What every tick has in common whatever its word: no refusal (R49, R113), and no influence of an ignored field
(R47). -/

namespace Sys2Proof.Machine

theorem exec_ne_refused (i : Instr) (s : State) (r : Refusal) : exec i s ≠ .refused r := by
  rw [exec_eq_cycle]
  rcases cycle_cases i.control i.operands s with ⟨-, h⟩ | ⟨-, h⟩ <;> rw [h] <;> nofun

theorem step_ne_refused (s : State) (r : Refusal) : step s ≠ .refused r := by
  unfold step
  split
  · nofun
  · exact exec_ne_refused _ s r

/-- Settles O38: the first tick that does not complete ends the run, and it ends in a fault. -/
theorem noRunIsRefused : Obligations.NoRunIsRefused := by
  intro n
  induction n with
  | zero => exact nofun
  | succ n ih =>
    intro s r
    rw [runTicks]
    split
    next t _ => exact ih t r
    next => nofun
    next hstep => exact absurd hstep (step_ne_refused s _)

/-- Ticks of one state whose signals agree on what the range check and the commit use have the same outcome. -/
theorem cycle_eq_of_sameCommit {c c' : Control} {o o' : Operands} {s : State}
    (h : (signals c o s).SameCommit (signals c' o' s)) : cycle c' o' s = cycle c o s := by
  have hraises : raises (signals c' o' s) s = raises (signals c o s) s := h.raises_eq rfl
  rcases cycle_cases c o s with ⟨hr, hc⟩ | ⟨hr, hc⟩
  · rw [hc, cycle_next (hraises.trans hr), h.commit_eq]
  · have haccess : (signals c o s).control.memWrite = true ∨ (signals c o s).control.memToReg = true :=
      Bool.or_eq_true_iff.mp (Bool.and_eq_true_iff.mp hr).1
    rw [hc, cycle, if_pos (hraises.trans hr), h.address haccess, raiseOutOfRange]

theorem exec_eq_of_sameCommit {i j : Instr} {s : State}
    (h : (signals i.control i.operands s).SameCommit (signals j.control j.operands s)) : exec i s = exec j s := by
  rw [exec_eq_cycle, exec_eq_cycle, cycle_eq_of_sameCommit h]

/-- The shift of LUI alone takes the immediate field itself (R64). -/
theorem alu_congr_imm {op : AluOp} (h : op ≠ .shiftImm) (a b : Word) (imm imm' : Imm) :
    alu op a b imm = alu op a b imm' := by
  cases op with
  | shiftImm => exact absurd rfl h
  | add | and | or | lessThan | subtract => rfl

theorem nextPc_of_not_branch {c : Control} (h : c.branch = false) (o : Operands) (s : State) :
    (signals c o s).nextPc = truncPcw s.cfg.pcw (s.pc + 1#32) := by
  rw [signals_nextPc, signals_taken, h, Bool.false_and, nextPcValue, if_neg Bool.false_ne_true]

/-- The immediate field has no part in the tick of a bundle that takes operand B from a register, shifts nothing and
does not branch (R63, R64, R70). -/
theorem sameCommit_withImm {c : Control} (hsrc : c.aluSrc = .reg) (hop : c.aluOp ≠ .shiftImm) (hbr : c.branch = false)
    (o : Operands) (imm : Imm) (s : State) : (signals c o s).SameCommit (signals c { o with imm := imm } s) := by
  have halu : (signals c { o with imm := imm } s).aluResult = (signals c o s).aluResult := by
    rw [signals_aluResult, signals_aluResult, hsrc, operandB_reg, operandB_reg]
    exact alu_congr_imm hop _ _ imm o.imm
  have hwb : (signals c { o with imm := imm } s).wb = (signals c o s).wb := by
    rw [signals_wb, signals_wb, signals_memData, signals_memData, halu]
  have hpc : (signals c { o with imm := imm } s).nextPc = (signals c o s).nextPc := by
    rw [nextPc_of_not_branch hbr, nextPc_of_not_branch hbr]
  exact ⟨rfl, rfl, hpc, fun _ => hwb, fun _ => halu, fun _ => rfl⟩

/-- Settles O17: `sh` reaches only the immediate, which no R-type bundle uses, and `rs` of LUI only operand A, which its
operation does not use. -/
theorem ignoredFieldsDoNotMatter : Obligations.IgnoredFieldsDoNotMatter := by
  intro rs rt rd r sh sh' imm s
  refine ⟨?add, ?and, ?slt, ?lui⟩ <;> apply exec_eq_of_sameCommit
  case add => exact sameCommit_withImm (c := controlAdd) rfl (by decide) rfl _ _ s
  case and => exact sameCommit_withImm (c := controlAnd) rfl (by decide) rfl _ _ s
  case slt => exact sameCommit_withImm (c := controlSlt) rfl (by decide) rfl _ _ s
  case lui => exact ⟨rfl, rfl, rfl, fun _ => rfl, nofun, nofun⟩

end Sys2Proof.Machine
end

section
/-! The tick: what `step` does on a machine that is not faulted, its datapath form, and the ALU (R56, R57, R64, R72,
R115). -/

namespace Sys2Proof.Machine

/-! ## The decoded instruction and the raw word -/

theorem step_eq_exec {s : State} (h : s.faulted = none) : step s = exec (decode s.fetch) s := by
  rw [step, h]

/-- Settles O19. -/
theorem stepRunsTheDecodedInstruction : Obligations.StepRunsTheDecodedInstruction := by
  rintro s i h rfl
  exact step_eq_exec h

/-- The datapath reads from the word of an instruction the instruction's own operands, an unsupported word's too
(R41, R58). -/
theorem operandsOf_encode (i : Instr) : operandsOf (encode i) = i.operands := by
  cases i with
  | add rs rt rd sh | and rs rt rd sh | slt rs rt rd sh =>
    rw [operandsOf, encode, fieldsOf_encodeR, Instr.operands, operandsR]
  | addi rs rt imm | lui rs rt imm | ori rs rt imm | lw rs rt imm | sw rs rt imm | beq rs rt imm =>
    rw [operandsOf, encode, fieldsOf_encodeI, Instr.operands, operandsI]
  | unsupported w => rfl

/-- The Control Unit has the all-zero bundle for a word that fits no row of R46 (R60, R96). -/
theorem controlOf_of_not_supportedWord {w : Word} (h : supportedWord w = false) : controlOf w = controlZero := by
  have hrows := (supportedWord_iff w).not.mp (Bool.eq_false_iff.mp h)
  simp only [not_or, not_and] at hrows
  obtain ⟨hfunc, hopcode⟩ := hrows
  by_cases hop : (fieldsOf w).opcode = 0#6
  · simp [controlOf, controlUnit, controlUnitRType, hop, hfunc hop]
  · simp [controlOf, controlUnit, hop, hopcode]

/-- The Control Unit answers for the word of an instruction with the instruction's own bundle (R59, R60). -/
theorem controlOf_encode {i : Instr} (h : i.wf = true) : controlOf (encode i) = i.control := by
  cases i with
  | add rs rt rd sh | and rs rt rd sh | slt rs rt rd sh =>
    rw [controlOf, encode, fieldsOf_encodeR]
    rfl
  | addi rs rt imm | lui rs rt imm | ori rs rt imm | lw rs rt imm | sw rs rt imm | beq rs rt imm =>
    rw [controlOf, encode, fieldsOf_encodeI]
    rfl
  | unsupported w => exact controlOf_of_not_supportedWord ((Bool.not_eq_true' _).mp h)

theorem control_decode (w : Word) : (decode w).control = controlOf w := by
  obtain ⟨hwf, hencode⟩ := encodeOfDecode w
  rw [← controlOf_encode hwf, hencode]

theorem operands_decode (w : Word) : (decode w).operands = operandsOf w := by
  rw [← operandsOf_encode, (encodeOfDecode w).2]

/-- Settles O20: the meaning of the decoded instruction is one tick of the datapath, under the bundle and on the
operands that the raw word itself gives. -/
theorem stepIsTheDatapathTick : Obligations.StepIsTheDatapathTick := by
  intro s h
  rw [step_eq_exec h, exec_eq_cycle, control_decode, operands_decode, tick]

/-! ## The full data memory -/

/-- With the full data memory every address is provisioned, so no tick raises the fault (R33, R115). -/
theorem raises_eq_false_of_full_memory {s : State} (h : s.cfg.dmemWords = 2 ^ 32) (g : Signals) :
    raises g s = false :=
  (raises_eq_false_iff g s).mpr fun _ => h ▸ g.aluResult.isLt

/-- With the full data memory a tick completes, and the machine it leaves is again not faulted and has the full data
memory. -/
theorem step_next_of_full_memory {s : State} (hnone : s.faulted = none) (hfull : s.cfg.dmemWords = 2 ^ 32) :
    ∃ t, step s = .next t ∧ t.faulted = none ∧ t.cfg.dmemWords = 2 ^ 32 := by
  have hstep : step s = .next (commit (trace s).signals s) :=
    (stepIsTheDatapathTick s hnone).trans (cycle_next (raises_eq_false_of_full_memory hfull _))
  exact ⟨_, hstep, (commit_faulted _ s).trans hnone, by rwa [commit_cfg]⟩

/-- Settles O37: the two hypotheses on the state pass from each tick to the next. -/
theorem fullMemoryMachineNeverStops : Obligations.FullMemoryMachineNeverStops := by
  intro n
  induction n with
  | zero => exact fun s hnone _ => ⟨s, rfl, hnone⟩
  | succ n ih =>
    intro s hnone hfull
    obtain ⟨t, hstep, hnone', hfull'⟩ := step_next_of_full_memory hnone hfull
    rw [runTicks, hstep]
    exact ih t hnone' hfull'

/-! ## The ALU as arithmetic -/

/-- The immediate shifted into the upper half loses no bit (R64). -/
theorem alu_shiftImm_toNat (a b : Word) (imm : Imm) : (alu .shiftImm a b imm).toNat = imm.toNat * 2 ^ 16 := by
  have hlt : imm.toNat * 2 ^ 16 < 2 ^ 32 := Nat.mul_lt_mul_of_pos_right imm.isLt (by decide)
  rw [alu_shiftImm, BitVec.toNat_shiftLeft, zext32_toNat, Nat.shiftLeft_eq, Nat.mod_eq_of_lt hlt]

/-- The predicate of operation 4 as the number 1 or 0 (R64). -/
theorem alu_lessThan_toNat (a b : Word) (imm : Imm) :
    (alu .lessThan a b imm).toNat = if a.toNat < b.toNat then 1 else 0 := by
  rw [alu_lessThan, apply_ite BitVec.toNat]
  rfl

/-- The difference of operation 5 as an integer modulo `2 ^ 32`, in the order `b - a` (R64). -/
theorem alu_subtract_toNat (a b : Word) (imm : Imm) :
    ((alu .subtract a b imm).toNat : Int) = ((b.toNat : Int) - a.toNat) % 2 ^ 32 := by
  have ha := a.isLt
  rw [alu_subtract, BitVec.toNat_sub]
  omega

/-- Settles O21: each of the selectors 0 to 5 has its own operation, and 6 and 7 have none (R65). -/
theorem aluOperationsBySelector : Obligations.AluOperationsBySelector := fun a b imm =>
  ⟨⟨.add, rfl, BitVec.toNat_add a b⟩, ⟨.and, rfl, fun _ => BitVec.getLsbD_and⟩,
    ⟨.shiftImm, rfl, alu_shiftImm_toNat a b imm⟩, ⟨.or, rfl, fun _ => BitVec.getLsbD_or⟩,
    ⟨.lessThan, rfl, alu_lessThan_toNat a b imm⟩, ⟨.subtract, rfl, alu_subtract_toNat a b imm⟩, rfl, rfl⟩

end Sys2Proof.Machine
end

section
/-! The register-register instructions: the words of an R-type row, and the commit of an instruction that writes its ALU
result to a register (R46, R69, R80 to R83). -/

namespace Sys2Proof

/-- A well-formed instruction is decoded from its own word alone (R43, R54). -/
theorem decode_eq_iff {w : Word} {i : Instr} (h : i.wf = true) : decode w = i ↔ encode i = w :=
  ⟨encode_of_decode_eq, fun he => he ▸ decodeOfEncode i h⟩

/-- The row of an R-type instruction selects exactly the words that decode to it, whatever their other fields (R46,
R47). -/
theorem mask_func_iff_exists_decode (func : Code6) (mk : RegIdx → RegIdx → RegIdx → BitVec 5 → Instr)
    (hwf : ∀ rs rt rd sh, (mk rs rt rd sh).wf = true)
    (henc : ∀ rs rt rd sh, encode (mk rs rt rd sh) = encodeR func rs rt rd sh) (w : Word) :
    w &&& 0xFC00003F#32 = func.setWidth 32 ↔ ∃ rs rt rd sh, decode w = mk rs rt rd sh := by
  simp only [decode_eq_iff (hwf _ _ _ _), henc]
  constructor
  · intro h
    obtain ⟨hop, rfl⟩ := (mask_func_iff w func).mp h
    exact ⟨_, _, _, _, encodeR_fieldsOf hop⟩
  · rintro ⟨rs, rt, rd, sh, rfl⟩
    exact encodeR_mask func rs rt rd sh

end Sys2Proof

namespace Sys2Proof.Machine

/-- An instruction that writes a register and neither accesses the data memory nor branches completes in every state:
its ALU result goes to the register, the program counter advances by 1, and everything else stays (R33, R68 to R71). -/
theorem exec_next_of_writes_aluResult {i : Instr} {d : RegIdx} (hd : i.writes = some d)
    (hload : i.control.memToReg = false) (hstore : i.control.memWrite = false) (hbranch : i.control.branch = false)
    (s : State) : ∃ t, exec i s = .next t ∧ t.reg d = (signals i.control i.operands s).aluResult ∧
      t.pc = truncPcw s.cfg.pcw (s.pc + 1#32) ∧ UnchangedBut (· = d) nowhere s t := by
  obtain ⟨hwrite, hdest⟩ := (writes_eq_some_iff i d).mp hd
  have hraises : raises (signals i.control i.operands s) s = false :=
    (raises_eq_false_iff _ s).mpr (by simp [hload, hstore])
  refine ⟨_, (exec_eq_cycle i s).trans (cycle_next hraises), ?result, nextPc_of_not_branch hbranch _ s, ?frame⟩
  case result => simp [commit_reg, hwrite, hdest, signals_wb, writeBack, hload]
  case frame => exact commit_unchangedBut _ s (fun _ => hdest) (by simp [hstore])

/-- Settles O1: the ALU result of an ADD is the sum of its two registers. -/
theorem addRowBundleAndEffect : Obligations.AddRowBundleAndEffect := by
  refine ⟨mask_func_iff_exists_decode 0x20#6 .add (fun _ _ _ _ => rfl) fun _ _ _ _ => rfl, rfl, fun rs rt rd sh s => ?_⟩
  exact exec_next_of_writes_aluResult rfl rfl rfl rfl s

/-- Settles O2: the ALU result of an AND is the conjunction of its two registers, bit by bit. -/
theorem andRowBundleAndEffect : Obligations.AndRowBundleAndEffect := by
  refine ⟨mask_func_iff_exists_decode 0x24#6 .and (fun _ _ _ _ => rfl) fun _ _ _ _ => rfl, rfl, fun rs rt rd sh s => ?_⟩
  obtain ⟨t, hexec, hreg, hpc, hframe⟩ :=
    exec_next_of_writes_aluResult (i := .and rs rt rd sh) (d := rd) rfl rfl rfl rfl s
  have hand : t.reg rd = s.reg rs &&& s.reg rt := hreg
  exact ⟨t, hexec, fun k => by rw [hand, BitVec.getLsbD_and], hpc, hframe⟩

/-- Settles O3: the ALU result of an SLT is the unsigned comparison of its two registers. -/
theorem sltRowBundleAndEffect : Obligations.SltRowBundleAndEffect := by
  refine ⟨mask_func_iff_exists_decode 0x2a#6 .slt (fun _ _ _ _ => rfl) fun _ _ _ _ => rfl, rfl, fun rs rt rd sh s => ?_⟩
  obtain ⟨t, hexec, hreg, hpc, hframe⟩ :=
    exec_next_of_writes_aluResult (i := .slt rs rt rd sh) (d := rd) rfl rfl rfl rfl s
  have hslt : t.reg rd = alu .lessThan (s.reg rs) (s.reg rt) (rd ++ sh ++ 0x2a#6) := hreg
  exact ⟨t, hexec, hslt.trans (alu_lessThan _ _ _), hpc, hframe⟩

end Sys2Proof.Machine
end

section
/-! The register-immediate instructions: the words of an I-type row, the extended immediate as two halves, and the frame
of two ticks (R8, R46, R84 to R87). -/

namespace Sys2Proof

/-- The row of an I-type instruction selects exactly the words that decode to it, whatever their other fields (R46,
R47). -/
theorem mask_opcode_iff_exists_decode (opcode : Code6) (mk : RegIdx → RegIdx → Imm → Instr)
    (hwf : ∀ rs rt imm, (mk rs rt imm).wf = true)
    (henc : ∀ rs rt imm, encode (mk rs rt imm) = encodeI opcode rs rt imm) (w : Word) :
    w &&& 0xFC000000#32 = opcode.setWidth 32 <<< 26 ↔ ∃ rs rt imm, decode w = mk rs rt imm := by
  simp only [decode_eq_iff (hwf _ _ _), henc]
  constructor
  · intro h
    obtain rfl := (mask_opcode_iff w opcode).mp h
    exact ⟨_, _, _, encodeI_fieldsOf w⟩
  · rintro ⟨rs, rt, imm, rfl⟩
    exact encodeI_mask opcode rs rt imm

end Sys2Proof

namespace Sys2Proof.Machine

/-! ## A word as two halves -/

theorem zext32_eq_append (v : Imm) : zext32 v = 0#16 ++ v :=
  BitVec.setWidth_eq_append (by decide)

theorem zext32_shiftLeft_eq_append (v : Imm) : zext32 v <<< 16 = v ++ 0#16 := by
  have h := BitVec.setWidth_append_eq_shiftLeft_setWidth_or (w'' := 32) (b := v) (b' := 0#16)
  rw [BitVec.setWidth_eq, BitVec.setWidth_zero, BitVec.or_zero] at h
  exact h.symm

/-- An OR with a zero-extended immediate passes the upper half (R85). -/
theorem or_zext32_upper (a : Word) (v : Imm) : (a ||| zext32 v).extractLsb' 16 16 = a.extractLsb' 16 16 := by
  rw [BitVec.extractLsb'_or, zext32_eq_append, BitVec.extractLsb'_append_eq_left, BitVec.or_zero]

/-- An OR with a zero-extended immediate meets the immediate in the lower half (R85). -/
theorem or_zext32_lower (a : Word) (v : Imm) : (a ||| zext32 v).extractLsb' 0 16 = a.extractLsb' 0 16 ||| v := by
  rw [BitVec.extractLsb'_or, zext32_eq_append, BitVec.extractLsb'_append_eq_right]

/-- The two halves of a constant, each with zeros in the place of the other (R87). -/
theorem append_zero_or_zext32 (hi lo : Imm) : (hi ++ 0#16) ||| zext32 lo = hi ++ lo := by
  rw [zext32_eq_append, BitVec.or_append, BitVec.or_zero, BitVec.zero_or]

/-! ## The frame of two ticks -/

/-- What each of two ticks leaves unchanged, both together leave unchanged. -/
theorem UnchangedBut.trans {regs : RegIdx → Prop} {cells : Word → Prop} {s t u : State}
    (hst : UnchangedBut regs cells s t) (htu : UnchangedBut regs cells t u) : UnchangedBut regs cells s u where
  reg r hr := (htu.reg r hr).trans (hst.reg r hr)
  cell a ha := (htu.cell a ha).trans (hst.cell a ha)
  imem := htu.imem.trans hst.imem
  faulted := htu.faulted.trans hst.faulted
  cfg := htu.cfg.trans hst.cfg

/-! ## The three instructions and R87 -/

/-- Settles O4: the ALU result of an ADDI is the sum of its register and the sign-extended immediate. -/
theorem addiRowBundleAndEffect : Obligations.AddiRowBundleAndEffect := by
  refine ⟨mask_opcode_iff_exists_decode 0x08#6 .addi (fun _ _ _ => rfl) fun _ _ _ => rfl, fun _ => rfl,
    fun rs rt imm s => ?_⟩
  exact exec_next_of_writes_aluResult rfl rfl rfl rfl s

/-- Settles O5: the ALU result of an ORI is its register ORed with the zero-extended immediate, half by half. -/
theorem oriRowBundleAndEffect : Obligations.OriRowBundleAndEffect := by
  refine ⟨mask_opcode_iff_exists_decode 0x0d#6 .ori (fun _ _ _ => rfl) fun _ _ _ => rfl, fun _ => rfl,
    fun rs rt imm s => ?_⟩
  obtain ⟨t, hexec, hreg, hpc, hframe⟩ :=
    exec_next_of_writes_aluResult (i := .ori rs rt imm) (d := rt) rfl rfl rfl rfl s
  have hor : t.reg rt = s.reg rs ||| zext32 imm := hreg
  exact ⟨t, hexec, hor, hor ▸ or_zext32_upper _ _, hor ▸ or_zext32_lower _ _, hpc, hframe⟩

/-- Settles O6: the ALU result of a LUI is the immediate itself, shifted to the upper half. -/
theorem luiRowBundleAndEffect : Obligations.LuiRowBundleAndEffect := by
  refine ⟨mask_opcode_iff_exists_decode 0x0f#6 .lui (fun _ _ _ => rfl) fun _ _ _ => rfl, fun _ => rfl,
    fun rs rt imm s => ?_⟩
  obtain ⟨t, hexec, hreg, hpc, hframe⟩ :=
    exec_next_of_writes_aluResult (i := .lui rs rt imm) (d := rt) rfl rfl rfl rfl s
  exact ⟨t, hexec, hreg.trans (zext32_shiftLeft_eq_append imm), hpc, hframe⟩

/-- Settles O34: LUI leaves the upper half over zeros, and ORI fills the zeros with the lower half. -/
theorem luiThenOriBuildsConstant : Obligations.LuiThenOriBuildsConstant := by
  intro r q hi lo s
  obtain ⟨-, -, hlui⟩ := luiRowBundleAndEffect
  obtain ⟨-, -, hori⟩ := oriRowBundleAndEffect
  obtain ⟨t, hexec, hreg, -, hframe⟩ := hlui q r hi s
  obtain ⟨u, hexec', hreg', -, -, -, hframe'⟩ := hori r r lo t
  refine ⟨t, u, hexec, hexec', ?_, hframe.trans hframe'⟩
  rw [hreg', hreg, append_zero_or_zext32]

end Sys2Proof.Machine
end

section
/-! Load and store word: the tick at a provisioned address, the fault at any other, and a later load of a stored value
(R33, R67, R88 to R91, R115). -/

namespace Sys2Proof.Machine

/-! ## The tick by its address -/

/-- An instruction whose ALU result is a provisioned address commits, whatever it does with the address (R33). -/
theorem exec_next_of_provisioned {i : Instr} {s : State}
    (hin : (signals i.control i.operands s).aluResult.toNat < s.cfg.dmemWords) :
    exec i s = .next (commit (signals i.control i.operands s) s) :=
  (exec_eq_cycle i s).trans (cycle_next ((raises_eq_false_iff _ s).mpr fun _ => hin))

theorem commit_pc_of_not_branch {c : Control} (h : c.branch = false) (o : Operands) (s : State) :
    (commit (signals c o s) s).pc = truncPcw s.cfg.pcw (s.pc + 1#32) :=
  (commit_pc _ s).trans (nextPc_of_not_branch h o s)

theorem settle_of_step_fault {s : State} {f : Fault} (h : step s = .fault f) : settle s = s.markFaulted f := by
  rw [settle, h]

/-- A store or load at an address that is not provisioned faults with `pc` and that address, and its tick sets the mark
and nothing else (R33, R115, R116). -/
theorem exec_fault_and_settle_of_not_provisioned {i : Instr} {s : State}
    (haccess : i.control.memWrite = true ∨ i.control.memToReg = true)
    (hout : s.cfg.dmemWords ≤ (signals i.control i.operands s).aluResult.toNat) :
    exec i s = .fault (.dataAddressOutOfRange s.pc (signals i.control i.operands s).aluResult) ∧
    (s.faulted = none → decode s.fetch = i → settle s =
      { s with faulted := some (.dataAddressOutOfRange s.pc (signals i.control i.operands s).aluResult) }) := by
  have hfault : exec i s = .fault (.dataAddressOutOfRange s.pc (signals i.control i.operands s).aluResult) := by
    rw [exec_eq_cycle]
    rcases cycle_cases i.control i.operands s with ⟨hr, -⟩ | ⟨-, hc⟩
    · exact absurd ((raises_eq_false_iff _ s).mp hr haccess) hout.not_gt
    · exact hc
  refine ⟨hfault, ?_⟩
  rintro hnone rfl
  exact settle_of_step_fault ((step_eq_exec hnone).trans hfault)

/-! ## The two instructions -/

/-- The word a LW writes back is the cell at its effective address, where that is provisioned (R67, R68, R88). -/
theorem wb_lw {rs rt : RegIdx} {imm : Imm} {s : State} (hin : (s.reg rs + sext32 imm).toNat < s.cfg.dmemWords) :
    (signals (Instr.lw rs rt imm).control (Instr.lw rs rt imm).operands s).wb = some (s.cell (s.reg rs + sext32 imm)) :=
  if_pos (decide_eq_true hin)

/-- Settles O7: the ALU result of a LW is its effective address; its commit writes the cell there to `rt`. -/
theorem lwRowBundleEffectAndFault : Obligations.LwRowBundleEffectAndFault := by
  refine ⟨mask_opcode_iff_exists_decode 0x23#6 .lw (fun _ _ _ => rfl) fun _ _ _ => rfl, fun _ => rfl,
    fun rs rt imm s hin => ?completes, fun rs rt imm s hout => ?faults⟩
  case completes =>
    refine ⟨_, exec_next_of_provisioned hin, ?loaded, commit_pc_of_not_branch rfl _ s,
      commit_unchangedBut _ s (fun _ => rfl) nofun⟩
    case loaded => rw [commit_reg, if_pos ⟨rfl, rfl⟩, wb_lw hin, Option.getD_some]
  case faults => exact exec_fault_and_settle_of_not_provisioned (i := .lw rs rt imm) (.inr rfl) hout

/-- Settles O8: the ALU result of a SW is its effective address; its commit writes `x[rt]` to the cell there. -/
theorem swRowBundleEffectAndFault : Obligations.SwRowBundleEffectAndFault := by
  refine ⟨mask_opcode_iff_exists_decode 0x2b#6 .sw (fun _ _ _ => rfl) fun _ _ _ => rfl, fun _ => rfl,
    fun rs rt imm s hin => ?completes, fun rs rt imm s hout => ?faults⟩
  case completes =>
    refine ⟨_, exec_next_of_provisioned hin, ?stored, commit_pc_of_not_branch rfl _ s,
      commit_unchangedBut _ s nofun fun _ => rfl⟩
    case stored => exact (commit_cell _ s _).trans (if_pos ⟨rfl, rfl⟩)
  case faults => exact exec_fault_and_settle_of_not_provisioned (i := .sw rs rt imm) (.inl rfl) hout

/-! ## A later load -/

/-- A SW that completes had a provisioned address (R33, R89). -/
theorem provisioned_of_sw_next {rs rt : RegIdx} {imm : Imm} {s t : State} (h : exec (.sw rs rt imm) s = .next t) :
    (s.effectiveAddress rs imm).toNat < s.cfg.dmemWords :=
  (raises_eq_false_iff _ s).mp (exec_next_inv h).1 (.inl rfl)

theorem exec_cfg {i : Instr} {s t : State} (h : exec i s = .next t) : t.cfg = s.cfg := by
  obtain ⟨-, rfl⟩ := exec_next_inv h
  exact commit_cfg _ s

theorem runTicks_cfg {n : Nat} {s t : State} (h : runTicks n s = .next t) : t.cfg = s.cfg :=
  runTicks_keeps (f := State.cfg) (P := fun _ => True) (fun _ _ _ hstep => exec_cfg (step_next_inv hstep).2) h
    fun _ _ _ _ => trivial

/-- Settles O32: the store writes the cell, the run keeps it, and the load reads it; the address that was provisioned
for the store still is for the load, since no tick changes the parameters. -/
theorem storeThenLaterLoad : Obligations.StoreThenLaterLoad := by
  intro s t u rs rt rs' rt' imm imm' n hstore hrun hnot haddr
  obtain ⟨-, -, hsw, -⟩ := swRowBundleEffectAndFault
  obtain ⟨-, -, hlw, -⟩ := lwRowBundleEffectAndFault
  have hin := provisioned_of_sw_next hstore
  obtain ⟨t', hstore', hstored, -⟩ := hsw rs rt imm s hin
  obtain rfl : t = t' := Host.Outcome.next.inj (hstore.symm.trans hstore')
  have hcfg : u.cfg = s.cfg := (runTicks_cfg hrun).trans (exec_cfg hstore)
  have hin' : (u.effectiveAddress rs' imm').toNat < u.cfg.dmemWords := by rwa [haddr, hcfg]
  obtain ⟨v, hload, hloaded, -⟩ := hlw rs' rt' imm' u hin'
  refine ⟨v, hload, ?_⟩
  calc v.reg rt' = u.cell (u.effectiveAddress rs' imm') := hloaded
    _ = u.cell (s.effectiveAddress rs imm) := by rw [haddr]
    _ = t.cell (s.effectiveAddress rs imm) := runTicks_cell_of_not_storesTo hrun hnot
    _ = s.reg rt := hstored

end Sys2Proof.Machine
end

section
/-! Branch if equal: the choice of the Program-Counter Updater, and the tick of a BEQ (R66, R70, R92). -/

namespace Sys2Proof.Machine

/-- Where the branch is taken on a condition, the Updater chooses between its two values by that condition (R70). -/
theorem nextPcValue_decide (pcw : Nat) (pc : Word) (imm : Imm) (p : Prop) [Decidable p] :
    nextPcValue pcw pc (decide p) imm =
      if p then truncPcw pcw (pc + 1#32 + sext32 imm) else truncPcw pcw (pc + 1#32) := by
  simp only [nextPcValue, decide_eq_true_eq]

/-- The program counter a BEQ commits is chosen by the equality of its two registers (R92). -/
theorem nextPc_beq (rs rt : RegIdx) (imm : Imm) (s : State) :
    (signals (Instr.beq rs rt imm).control (Instr.beq rs rt imm).operands s).nextPc =
      if s.reg rs = s.reg rt then truncPcw s.cfg.pcw (s.pc + 1#32 + sext32 imm)
      else truncPcw s.cfg.pcw (s.pc + 1#32) := by
  rw [signals_nextPc, taken_beq]
  exact nextPcValue_decide _ _ _ _

/-- Settles O9: a BEQ raises nothing and enables no write, so its commit changes the program counter alone. -/
theorem beqRowBundleAndEffect : Obligations.BeqRowBundleAndEffect := by
  refine ⟨mask_opcode_iff_exists_decode 0x04#6 .beq (fun _ _ _ => rfl) fun _ _ _ => rfl, fun _ => rfl,
    fun rs rt imm s => ?_⟩
  have hraises : raises (signals (Instr.beq rs rt imm).control (Instr.beq rs rt imm).operands s) s = false :=
    (raises_eq_false_iff _ s).mpr nofun
  exact ⟨_, (exec_eq_cycle _ s).trans (cycle_next hraises), nextPc_beq rs rt imm s,
    commit_unchangedBut _ s nofun nofun⟩

end Sys2Proof.Machine
end

section
/-! Unsupported words: which they are, their one meaning, and a stretch of them (R96, R97, R99, R132 (b)). -/

namespace Sys2Proof

/-- The words of no row, by the opcode and the function code as numbers (R48, R96). -/
theorem supportedWord_eq_false_iff (w : Word) : supportedWord w = false ↔
    ((fieldsOf w).opcode.toNat ∉ [0x00, 0x04, 0x08, 0x0d, 0x0f, 0x23, 0x2b] ∨
      (fieldsOf w).opcode.toNat = 0x00 ∧ (fieldsOf w).func.toNat ∉ [0x20, 0x24, 0x2a]) := by
  rw [← Bool.not_eq_true, supportedWord_iff]
  simp only [← BitVec.toNat_inj, BitVec.reduceToNat, List.mem_cons, List.not_mem_nil, or_false]
  omega

/-- The decoder answers `unsupported` exactly for the words of no row (R48). -/
theorem decode_eq_unsupported_iff (w : Word) : decode w = .unsupported w ↔ supportedWord w = false := by
  refine ⟨fun h => ?_, decode_of_not_supportedWord⟩
  have hwf : (decode w).wf = true := (encodeOfDecode w).1
  rw [h] at hwf
  exact (Bool.not_eq_true' _).mp hwf

/-- Every pair of an opcode and a function code is that of some word (R41). -/
theorem exists_fieldsOf_opcode_func (opcode func : Code6) :
    ∃ w, (fieldsOf w).opcode = opcode ∧ (fieldsOf w).func = func := by
  have hfunc : (func.setWidth 16).extractLsb' 0 6 = func := by
    rw [BitVec.extractLsb'_setWidth_of_le (by decide), BitVec.extractLsb'_eq_self]
  refine ⟨encodeI opcode 0#5 0#5 (func.setWidth 16), ?_⟩
  rw [fieldsOf_encodeI]
  exact ⟨rfl, hfunc⟩

end Sys2Proof

namespace Sys2Proof.Machine

/-! ## One tick -/

/-- An unsupported word raises nothing and enables no write, so its commit sets the program counter alone (R96). -/
theorem exec_unsupported (w : Word) (s : State) :
    exec (.unsupported w) s = .next (s.setPc (truncPcw s.cfg.pcw (s.pc + 1#32))) := by
  have hraises : raises (signals controlZero (operandsOf w) s) s = false := (raises_eq_false_iff _ s).mpr nofun
  have hpc : (signals controlZero (operandsOf w) s).nextPc = truncPcw s.cfg.pcw (s.pc + 1#32) :=
    nextPc_of_not_branch rfl _ s
  rw [← hpc]
  exact (exec_eq_cycle _ s).trans (cycle_next hraises)

theorem State.setPc_unchangedBut (s : State) (t : Word) : UnchangedBut nowhere nowhere s (s.setPc t) :=
  ⟨fun _ _ => rfl, fun _ _ => rfl, rfl, rfl, rfl⟩

/-- Settles O10: the decoder and the Control Unit leave the table at the same words, and every pair of codes is that of
a word. -/
theorem unsupportedWordsBundleAndEffect : Obligations.UnsupportedWordsBundleAndEffect := by
  refine ⟨fun w => ?words, fun opcode func hout => ?bundle, fun w s => ?effect⟩
  case words =>
    obtain ⟨hopcode, -, -, -, -, hfunc, -⟩ := fieldsAreTheBitRanges w
    rw [decode_eq_unsupported_iff, supportedWord_eq_false_iff, hopcode, hfunc]
  case bundle =>
    obtain ⟨w, rfl, rfl⟩ := exists_fieldsOf_opcode_func opcode func
    exact controlOf_of_not_supportedWord ((supportedWord_eq_false_iff w).mpr hout)
  case effect => exact ⟨_, exec_unsupported w s, rfl, s.setPc_unchangedBut _⟩

/-- Settles O18. -/
theorem unsupportedWordsAreEquivalent : Obligations.UnsupportedWordsAreEquivalent := by
  intro w v s
  rw [exec_unsupported, exec_unsupported]

/-! ## A stretch of ticks -/

/-- The state with its program counter `k` entries on, modulo `2 ^ PCW` (R16, R99). -/
def State.advance (s : State) (k : Nat) : State := s.setPc (BitVec.ofNat 32 ((s.pc.toNat + k) % 2 ^ s.cfg.pcw))

theorem State.advance_pc_toNat {s : State} (h : s.cfg.pcw ≤ 32) (k : Nat) :
    (s.advance k).pc.toNat = (s.pc.toNat + k) % 2 ^ s.cfg.pcw := by
  have hlt : (s.pc.toNat + k) % 2 ^ s.cfg.pcw < 2 ^ 32 :=
    (Nat.mod_lt _ (Nat.two_pow_pos _)).trans_le (Nat.pow_le_pow_right Nat.two_pos h)
  exact Nat.mod_eq_of_lt hlt

theorem State.advance_zero {s : State} (h : s.pc.toNat < 2 ^ s.cfg.pcw) : s.advance 0 = s := by
  rw [State.advance, Nat.add_zero, Nat.mod_eq_of_lt h, BitVec.ofNat_toNat, BitVec.setWidth_eq]
  rfl

theorem State.advance_advance {s : State} (h : s.cfg.pcw ≤ 32) (j k : Nat) :
    (s.advance j).advance k = s.advance (j + k) := by
  have hpc : ((s.advance j).pc.toNat + k) % 2 ^ s.cfg.pcw = (s.pc.toNat + (j + k)) % 2 ^ s.cfg.pcw := by
    rw [advance_pc_toNat h, Nat.mod_add_mod, Nat.add_assoc]
  exact congrArg (fun p => s.setPc (BitVec.ofNat 32 p)) hpc

/-- The Program-Counter Updater's `pc + 1` is one entry on (R16, R70). -/
theorem State.advance_one {s : State} (h : s.cfg.pcw ≤ 32) :
    s.advance 1 = s.setPc (truncPcw s.cfg.pcw (s.pc + 1#32)) := by
  have hmod : (s.pc + 1#32).toNat % 2 ^ s.cfg.pcw = (s.pc.toNat + 1) % 2 ^ s.cfg.pcw := by
    rw [BitVec.toNat_add]
    exact Nat.mod_mod_of_dvd _ (pow_dvd_pow 2 h)
  rw [State.advance, truncPcw, hmod]

/-- A tick at an unsupported word goes one entry on (R96). -/
theorem step_of_unsupported {s : State} {w : Word} (hpcw : s.cfg.pcw ≤ 32) (hnone : s.faulted = none)
    (hdecode : decode s.fetch = .unsupported w) : step s = .next (s.advance 1) := by
  rw [step_eq_exec hnone, hdecode, exec_unsupported, State.advance_one hpcw]

/-- Through a stretch of unsupported words the machine goes one entry on a tick: the first tick by one, and from there
the others the rest of the way. -/
theorem runTicks_of_unsupported {n : Nat} {s : State} (hpcw : s.cfg.pcw ≤ 32) (hlt : s.pc.toNat < 2 ^ s.cfg.pcw)
    (hnone : s.faulted = none) (hstretch : ∀ k < n, ∃ w, decode (s.advance k).fetch = .unsupported w) :
    runTicks n s = .next (s.advance n) := by
  induction n generalizing s with
  | zero => rw [State.advance_zero hlt, runTicks]
  | succ n ih =>
    obtain ⟨w, hfirst⟩ := hstretch 0 n.succ_pos
    rw [State.advance_zero hlt] at hfirst
    have hlt' : (s.advance 1).pc.toNat < 2 ^ s.cfg.pcw :=
      (State.advance_pc_toNat hpcw 1).trans_lt (Nat.mod_lt _ (Nat.two_pow_pos _))
    have hrest : ∀ k < n, ∃ w, decode ((s.advance 1).advance k).fetch = .unsupported w := fun k hk => by
      rw [State.advance_advance hpcw, Nat.add_comm]
      exact hstretch (k + 1) (Nat.succ_lt_succ hk)
    rw [runTicks, step_of_unsupported hpcw hnone hfirst, Nat.add_comm, ← State.advance_advance hpcw]
    exact ih (s := s.advance 1) hpcw hlt' hnone hrest

/-- Settles O26: the entry fetched `k` ticks on is the one at `pc + k` modulo `2 ^ PCW`. -/
theorem unsupportedStretchOnlyAdvances : Obligations.UnsupportedStretchOnlyAdvances :=
  fun _ _ ⟨_, hpcw, _⟩ hlt hnone hstretch => runTicks_of_unsupported hpcw hlt hnone hstretch

end Sys2Proof.Machine
end

section
/-! The ports: what the instruction port and the data port carry in a tick, and how the tick's commit follows from it
(R67, R88, R89, R103, R104). -/

namespace Sys2Proof.Machine

/-- The trace shows the signals of the decoded instruction (R76, R110). -/
theorem trace_signals_of_decode {s : State} {i : Instr} (h : decode s.fetch = i) :
    (trace s).signals = signals i.control i.operands s := by
  rw [← h, control_decode, operands_decode, trace]

/-- A tick that completes raised nothing, and commits the signals that the trace shows. -/
theorem step_next_inv_trace {s t : State} (h : step s = .next t) :
    raises (trace s).signals s = false ∧ t = commit (trace s).signals s := by
  rw [trace_signals_of_decode rfl]
  exact exec_next_inv (step_next_inv h).2

/-! ## The data port, signal by signal -/

theorem ports_dmemWe_iff (s : State) :
    (ports s).dmemWe = true ↔ ∃ rs rt imm, decode s.fetch = .sw rs rt imm := by
  rw [← control_memWrite_iff, control_decode]
  rfl

/-- A read at a provisioned address presents the cell as it is before the tick (R67, R104). -/
theorem ports_dmemRdata_of_provisioned {s : State} (hwe : (ports s).dmemWe = false)
    (hin : (ports s).dmemAddr.toNat < s.cfg.dmemWords) :
    (ports s).dmemRdata = some (s.cell (ports s).dmemAddr) := by
  have hread : ¬ (controlOf s.fetch).memWrite = true := Bool.eq_false_iff.mp hwe
  exact (if_neg hread).trans (if_pos (decide_eq_true hin))

/-- The data address of a LW or SW is its effective address (R88, R89, R90). -/
theorem ports_dmemAddr_of_access {s : State} {rs rt : RegIdx} {imm : Imm}
    (h : decode s.fetch = .lw rs rt imm ∨ decode s.fetch = .sw rs rt imm) :
    (ports s).dmemAddr = s.effectiveAddress rs imm := by
  rcases h with h | h <;> exact congrArg Signals.aluResult (trace_signals_of_decode h)

theorem ports_dmemWdata_of_sw {s : State} {rs rt : RegIdx} {imm : Imm} (h : decode s.fetch = .sw rs rt imm) :
    (ports s).dmemWdata = s.reg rt :=
  congrArg Signals.rtVal (trace_signals_of_decode h)

/-! ## The commit by the data port -/

/-- The cells after a tick that completes: the port's own write, where it is enabled (R67, R104). -/
theorem step_cell_eq_ports {s t : State} (h : step s = .next t) (a : Word) :
    t.cell a = if (ports s).dmemWe = true ∧ a = (ports s).dmemAddr then (ports s).dmemWdata else s.cell a := by
  obtain ⟨-, rfl⟩ := step_next_inv_trace h
  exact commit_cell _ s a

/-- A tick that completes with write-enable clear leaves the data memory as it is (R67, R104). -/
theorem step_dmem_of_not_dmemWe {s t : State} (h : step s = .next t) (hwe : (ports s).dmemWe = false) :
    t.dmem = s.dmem := by
  obtain ⟨-, rfl⟩ := step_next_inv_trace h
  exact (commit_dmem _ s).trans (if_neg (Bool.eq_false_iff.mp hwe))

/-- In the tick of a LW that completes, the port reads the word that the destination register takes (R67, R88): the
address is provisioned, or the tick had raised the fault. -/
theorem ports_dmemRdata_of_lw {s t : State} (h : step s = .next t) {rs rt : RegIdx} {imm : Imm}
    (hlw : decode s.fetch = .lw rs rt imm) : (ports s).dmemRdata = some (t.reg rt) := by
  obtain ⟨-, hexec⟩ := step_next_inv h
  rw [hlw] at hexec
  have haddr := ports_dmemAddr_of_access (.inl hlw)
  have hwe : (ports s).dmemWe = false := congrArg (·.control.memWrite) (trace_signals_of_decode hlw)
  have hin : (s.effectiveAddress rs imm).toNat < s.cfg.dmemWords :=
    (raises_eq_false_iff _ s).mp (exec_next_inv hexec).1 (.inr rfl)
  obtain ⟨-, -, hload, -⟩ := lwRowBundleEffectAndFault
  obtain ⟨t', hexec', hreg, -⟩ := hload rs rt imm s hin
  obtain rfl : t = t' := Host.Outcome.next.inj (hexec.symm.trans hexec')
  have hcell : t.reg rt = s.cell (s.effectiveAddress rs imm) := hreg
  rw [ports_dmemRdata_of_provisioned hwe (haddr ▸ hin), haddr, hcell]

/-- Settles O23: the instruction port, the data address and the write data are the tick's own signals; the rest is said
of the data port above, one signal a lemma. -/
theorem portsCarryTheTick : Obligations.PortsCarryTheTick := by
  intro s t hstep
  refine ⟨rfl, rfl, rfl, rfl, ports_dmemWe_iff s, fun hwe => ⟨?stored, fun a ha => ?others⟩,
    fun hwe => ⟨step_dmem_of_not_dmemWe hstep hwe, ports_dmemRdata_of_provisioned hwe⟩,
    fun rs rt imm hsw => ⟨ports_dmemAddr_of_access (.inr hsw), ports_dmemWdata_of_sw hsw⟩,
    fun rs rt imm hlw => ⟨ports_dmemAddr_of_access (.inl hlw), ports_dmemRdata_of_lw hstep hlw⟩⟩
  case stored => exact (step_cell_eq_ports hstep _).trans (if_pos ⟨hwe, rfl⟩)
  case others => exact (step_cell_eq_ports hstep a).trans (if_neg fun ⟨_, h⟩ => ha h)

end Sys2Proof.Machine
end

section
/-! The fault: exactly when a tick raises it, the condition it leaves, and the two views of a run through it (R33, R115,
R116, R131). -/

namespace Sys2Proof.Machine

/-! ## When a tick faults -/

theorem cycle_fault_iff (c : Control) (o : Operands) (s : State) (f : Fault) : cycle c o s = .fault f ↔
    raises (signals c o s) s = true ∧ f = .dataAddressOutOfRange s.pc (signals c o s).aluResult := by
  rcases cycle_cases c o s with ⟨hr, hc⟩ | ⟨hr, hc⟩
  · simp [hr, hc]
  · simp [hr, hc, eq_comm]

/-- The range check fires exactly for a store, or a load that is used, at an address that is not provisioned (R33). -/
theorem raises_iff (g : Signals) (s : State) : raises g s = true ↔
    (g.control.memWrite = true ∨ g.control.memToReg = true) ∧ s.cfg.dmemWords ≤ g.aluResult.toNat := by
  rw [← Bool.not_eq_false, raises_eq_false_iff, Classical.not_imp, not_lt]

/-- The bundles of LW and SW alone use the data memory (R60). -/
theorem trace_accesses_iff (s : State) :
    (trace s).signals.control.memWrite = true ∨ (trace s).signals.control.memToReg = true ↔
      ∃ rs rt imm, decode s.fetch = .lw rs rt imm ∨ decode s.fetch = .sw rs rt imm := by
  rw [trace_signals_of_decode rfl, signals_control, control_memWrite_iff, control_memToReg_iff, or_comm]
  simp only [exists_or]

/-- The accesses outside the provisioned cells are those the range check finds, at the address on the data port (R33,
R104). -/
theorem accessesOutside_iff (s : State) (a : Word) :
    AccessesOutside s a ↔ raises (trace s).signals s = true ∧ a = (ports s).dmemAddr := by
  rw [raises_iff, trace_accesses_iff]
  constructor
  · rintro ⟨rs, rt, imm, haccess, rfl, hout⟩
    rw [← ports_dmemAddr_of_access haccess] at hout ⊢
    exact ⟨⟨⟨rs, rt, imm, haccess⟩, hout⟩, rfl⟩
  · rintro ⟨⟨⟨rs, rt, imm, haccess⟩, hout⟩, rfl⟩
    exact ⟨rs, rt, imm, haccess, (ports_dmemAddr_of_access haccess).symm, hout⟩

theorem step_fault_iff {s : State} (hnone : s.faulted = none) (f : Fault) :
    step s = .fault f ↔ ∃ a, AccessesOutside s a ∧ f = .dataAddressOutOfRange s.pc a := by
  rw [stepIsTheDatapathTick s hnone, tick, cycle_fault_iff]
  constructor
  · rintro ⟨hr, rfl⟩
    exact ⟨_, (accessesOutside_iff s _).mpr ⟨hr, rfl⟩, rfl⟩
  · rintro ⟨a, houtside, rfl⟩
    obtain ⟨hr, rfl⟩ := (accessesOutside_iff s a).mp houtside
    exact ⟨hr, rfl⟩

/-! ## The condition a tick leaves -/

/-- A tick completes or faults. -/
theorem step_cases (s : State) : (∃ t, step s = .next t) ∨ ∃ f, step s = .fault f := by
  cases h : step s with
  | next t => exact .inl ⟨t, rfl⟩
  | fault f => exact .inr ⟨f, rfl⟩
  | refused r => exact absurd h (step_ne_refused s r)

theorem settle_of_step_next {s t : State} (h : step s = .next t) : settle s = t := by
  rw [settle, h]

/-- A tick that completes leaves a machine that is not faulted. -/
theorem faulted_of_step_next {s t : State} (h : step s = .next t) : t.faulted = none := by
  obtain ⟨hnone, hexec⟩ := step_next_inv h
  obtain ⟨-, rfl⟩ := exec_next_inv hexec
  rwa [commit_faulted]

/-- A faulted machine executes no further tick (R115). -/
theorem step_of_faulted {s : State} {f : Fault} (h : s.faulted = some f) : step s = .fault f := by
  rw [step, h]

theorem settle_of_faulted {s : State} {f : Fault} (h : s.faulted = some f) : settle s = s := by
  rw [settle_of_step_fault (step_of_faulted h), State.markFaulted, ← h]

/-- A faulted machine stays as it is (R115). -/
theorem settleTicks_of_faulted {s : State} {f : Fault} (h : s.faulted = some f) (n : Nat) : settleTicks n s = s := by
  induction n with
  | zero => rfl
  | succ n ih => rw [settleTicks, settle_of_faulted h, ih]

/-- Settles O36: the fault is the range check's, and the mark it leaves stops the machine. -/
theorem outOfRangeAccessFaults : Obligations.OutOfRangeAccessFaults := by
  refine ⟨fun s f hnone => step_fault_iff hnone f, fun s f hfault => ?stops, fun s hnone hfull => ?full⟩
  case stops =>
    have hmark : settle s = s.markFaulted f := settle_of_step_fault hfault
    have hfaulted : (settle s).faulted = some f := congrArg State.faulted hmark
    exact ⟨hmark, step_of_faulted hfaulted, settleTicks_of_faulted hfaulted, fun n => by rw [runTicks, hfault]⟩
  case full =>
    obtain ⟨t, hstep, -⟩ := step_next_of_full_memory hnone hfull
    exact ⟨t, hstep⟩

/-! ## The invariant -/

/-- In a machine that meets the invariant, the fault of a tick, new or recorded, is at `pc` and at an address that is
not provisioned (R115, R116). -/
theorem State.Inv.of_step_fault {s : State} (hs : s.Inv) {pc addr : Word}
    (h : step s = .fault (.dataAddressOutOfRange pc addr)) : pc = s.pc ∧ s.cfg.dmemWords ≤ addr.toNat := by
  cases hmark : s.faulted with
  | none =>
    obtain ⟨a, ⟨rs, rt, imm, -, -, hout⟩, hf⟩ := (step_fault_iff hmark _).mp h
    obtain ⟨rfl, rfl⟩ := Fault.dataAddressOutOfRange.inj hf
    exact ⟨rfl, hout⟩
  | some f =>
    obtain rfl : f = .dataAddressOutOfRange pc addr := Host.Outcome.fault.inj ((step_of_faulted hmark).symm.trans h)
    exact hs.fault pc addr hmark

/-- One tick, completed or faulted, keeps the invariant. -/
theorem settle_inv {s : State} (hs : s.Inv) : (settle s).Inv := by
  rcases step_cases s with ⟨t, hstep⟩ | ⟨f, hstep⟩
  · rw [settle_of_step_next hstep]
    exact stepKeepsTheInvariant s t hs hstep
  · rw [settle_of_step_fault hstep]
    refine { hs with fault := fun pc addr hf => hs.of_step_fault ?_ }
    rw [hstep, Option.some.inj hf]

/-- Settles O43. -/
theorem settleKeepsTheInvariant : Obligations.SettleKeepsTheInvariant := by
  intro n
  induction n with
  | zero => exact fun _ hs => hs
  | succ n ih => exact fun s hs => ih (settle s) (settle_inv hs)

/-! ## The two views of a run -/

/-- Settles O44: while ticks complete the two views go on from the same state; at the first fault the run has no final
state, and the condition keeps the mark. -/
theorem runAndSettleAgree : Obligations.RunAndSettleAgree := by
  intro n
  induction n with
  | zero =>
    intro s t hnone
    simp only [runTicks, settleTicks, Host.Outcome.next.injEq]
    exact ⟨fun h => ⟨h, h ▸ hnone⟩, And.left⟩
  | succ n ih =>
    intro s t _
    rcases step_cases s with ⟨u, hstep⟩ | ⟨f, hstep⟩
    · rw [runTicks, hstep, settleTicks, settle_of_step_next hstep]
      exact ih u t (faulted_of_step_next hstep)
    · rw [runTicks, hstep, settleTicks, settle_of_step_fault hstep, settleTicks_of_faulted (s.markFaulted_faulted f)]
      refine iff_of_false nofun ?_
      rintro ⟨rfl, hnone⟩
      exact Option.some_ne_none f hnone

end Sys2Proof.Machine
end

section
/-! The branch to itself, the idiom that holds a machine where it is (R92, R132 (a)). -/

namespace Sys2Proof.Machine

/-- A `PCW`-bit value is its own truncation (R8, R16). -/
theorem truncPcw_of_lt {pcw : Nat} {v : Word} (h : v.toNat < 2 ^ pcw) : truncPcw pcw v = v := by
  rw [← BitVec.toNat_inj, truncPcw_toNat, Nat.mod_eq_of_lt h]

/-- The target of a branch with displacement -1 is the branch itself (R92). -/
theorem branchTarget_neg_one (pc : Word) : pc + 1#32 + sext32 0xFFFF#16 = pc := by
  have hcancel : 1#32 + sext32 0xFFFF#16 = 0#32 := by decide
  rw [BitVec.add_assoc, hcancel, BitVec.add_zero]

/-- A BEQ raises nothing and enables no write, so its commit sets the program counter alone (R92). -/
theorem exec_beq (rs rt : RegIdx) (imm : Imm) (s : State) : exec (.beq rs rt imm) s =
    .next (s.setPc (if s.reg rs = s.reg rt then truncPcw s.cfg.pcw (s.pc + 1#32 + sext32 imm)
      else truncPcw s.cfg.pcw (s.pc + 1#32))) := by
  rw [← nextPc_beq]
  exact (exec_eq_cycle _ s).trans (cycle_next ((raises_eq_false_iff _ s).mpr nofun))

theorem step_of_self_branch {s : State} {r : RegIdx} (hlt : s.pc.toNat < 2 ^ s.cfg.pcw) (hnone : s.faulted = none)
    (hdecode : decode s.fetch = .beq r r 0xFFFF#16) : step s = .next s := by
  rw [step_eq_exec hnone, hdecode, exec_beq, if_pos rfl, branchTarget_neg_one, truncPcw_of_lt hlt]
  rfl

/-- A state that a tick leaves as it is stays through any number of ticks. -/
theorem runTicks_of_step_self {s : State} (h : step s = .next s) (n : Nat) : runTicks n s = .next s := by
  induction n with
  | zero => rfl
  | succ n ih =>
    rw [runTicks, h]
    exact ih

/-- Settles O25: the taken branch leads back to its own entry, and one tick leaves the state as it is. -/
theorem selfBranchHoldsTheState : Obligations.SelfBranchHoldsTheState :=
  fun _ _ _ hlt hnone hdecode => runTicks_of_step_self (step_of_self_branch hlt hnone hdecode)

end Sys2Proof.Machine
end

section
/-! The Decode table of the spec's test vectors (95_test_vectors.md, part 2). -/

namespace Sys2Proof

/-- Settles O16: eight fixed words, each decoded by evaluation. -/
theorem decodeTableVectors : Obligations.DecodeTableVectors := by
  unfold Obligations.DecodeTableVectors
  decide

end Sys2Proof
end
